-- ==== Sys2Proof/Word.lean ====
section
/-! DEFINITION. The word types of the engine: bytes, nibbles, the 8-byte buffer operand, and what
`RxRead` can answer (spec/00_scope.md R7, R8; spec/20_memory.md R31). -/

namespace Sys2Proof

/-- A byte; also every coordinate, address and extent inside the engine (`W = 8`, R8). -/
abbrev Byte := BitVec 8

/-- A 4-bit field: an opcode nibble, a device coordinate. -/
abbrev Nibble := BitVec 4

/-- Eight bytes in index order: the operand `FRAME[0..7]`, the input and output of `FT` (R36). -/
structure Bytes8 where
  b0 : Byte
  b1 : Byte
  b2 : Byte
  b3 : Byte
  b4 : Byte
  b5 : Byte
  b6 : Byte
  b7 : Byte
deriving DecidableEq, Repr, Inhabited

/-- What `RxRead()` yields, `(k, b0, b1)` with `k` in 0, 1, 2: a byte that was not obtained is not
there (R31). -/
inductive ReadAnswer where
  | nothing
  | oneByte (b0 : Byte)
  | word (b0 b1 : Byte)
deriving DecidableEq, Repr, Inhabited

end Sys2Proof
end

