-- ==== Sys2Proof/Config.lean ====
section
/-! DEFINITION. The parameters of the engine (spec/00_scope.md R4): the seven wire constants, each
bound in this one place (R5, D26), the frame transform, and the free values. The opaque constants
have no body: no proof can see a value of one. -/

namespace Sys2Proof.Config

/-- `OPC_LED_ON`, the opcode nibble of "LED single on" (R4). UNVERIFIED against a device (N3), log 10. -/
def opcLedOn : Nibble := 0x2

/-- `OPC_LED_OFF` (R4). UNVERIFIED against a device (N3), log 10. -/
def opcLedOff : Nibble := 0x1

/-- `OPC_ROW` (R4). UNVERIFIED against a device (N3), log 10. -/
def opcRow : Nibble := 0x0

/-- `OPC_COL` (R4). UNVERIFIED against a device (N3), log 10. -/
def opcCol : Nibble := 0x8

/-- `OPB_INTENSITY`, the whole byte 0 of "Intensity" (R4). UNVERIFIED against a device (N3), log 10. -/
def opbIntensity : Byte := 0x0A

/-- `FAM_DOWN`, the incoming family nibble of "Button down" (R4). UNVERIFIED (N3), log 10. -/
def famDown : Nibble := 0x0

/-- `FAM_UP` (R4). UNVERIFIED against a device (N3), log 10. -/
def famUp : Nibble := 0x1

/-- `FT`, the frame transform: a total function of the offsets and the frame, a parameter of the model
(R4, R15, D18, U15). DESIGN CHOICE (log 4): it is always supplied, so OPEN with `FT_EN = 1` has an
effect; `FT_EN = 0` is its absence. Safe: nothing is assumed of it. -/
opaque frameTransform : Byte → Byte → Bytes8 → Bytes8

/-- The transport's answer to draw number `n` when it is a `TxOpen` that no listed answer covers
(`true` is `ok`). Free value, log 3. -/
opaque txOpenFree : Nat → Bool

/-- The same for `TxClose`. Free value, log 3. -/
opaque txCloseFree : Nat → Bool

/-- The same for `TxWrite`: how many bytes were accepted, 0, 1 or 2. Free value, log 3. -/
opaque txWriteFree : Nat → Fin 3

/-- The same for `RxRead`. Free value, log 3. -/
opaque rxReadFree : Nat → ReadAnswer

end Sys2Proof.Config
end

