-- ==== Sys2Proof/Syntax.lean ====
section
/-! DEFINITION. The syntax: one constructor of `Instr` for each row of spec/opcode_table.json, the
operand latches of the command port, the three kinds of units of encoding (spec/30_encoding.md R44),
and the reasons a unit is rejected. -/

namespace Sys2Proof

/-- The operand latches of the command port (spec/10_state.md R17), `OP` among them. A host command is
`OP` together with the latches its row names; the others are ignored (R45). -/
structure Latches where
  op : BitVec 4
  x : Byte
  y : Byte
  on : Bool
  addr : Byte
  data : Byte
  level : Byte
  modev : Byte
  stat : Bool
  xoff : Byte
  yoff : Byte
  frame : Bytes8
  cfgin : BitVec 12
deriving DecidableEq, Repr, Inhabited

/-- The instructions, in the order of the opcode table: ten host commands and the two ranges of
unrecognised `OP` codes (R46), five outgoing wire words (R49 to R51), five incoming words (R52, R57). -/
inductive Instr where
  | cmdOpen (cfgin : BitVec 12)
  | cmdClose
  | cmdEvt
  | cmdClear (stat : Bool)
  | cmdIntensity (level : Byte)
  | cmdMode (modev : Byte)
  | cmdLed (x y : Byte) (on : Bool)
  | cmdRow (addr data : Byte)
  | cmdCol (addr data : Byte)
  | cmdFrame (xoff yoff : Byte) (frame : Bytes8)
  | unrecognizedAB (low : BitVec 1)
  | unrecognizedCF (low : BitVec 2)
  | wLedOn (xr yr : BitVec 3)
  | wLedOff (xr yr : BitVec 3)
  | wRow (addr : BitVec 3) (bitmap : Byte)
  | wCol (addr : BitVec 3) (bitmap : Byte)
  | wIntensity (level : Byte)
  | eDown (low xd yd : Nibble)
  | eUp (low xd yd : Nibble)
  | eUnknown23 (fam : BitVec 1) (low : Nibble) (payload : Byte)
  | eUnknown47 (fam : BitVec 2) (low : Nibble) (payload : Byte)
  | eUnknown8F (fam : BitVec 3) (low : Nibble) (payload : Byte)
deriving DecidableEq, Repr

/-- A unit of encoding (R44): a host command, an outgoing wire word, an incoming word. A word is its
two bytes in transmission order (R34). -/
inductive EncUnit where
  | command (l : Latches)
  | outgoing (b0 b1 : Byte)
  | incoming (b0 b1 : Byte)
deriving DecidableEq, Repr

/-- Why the decoder rejects a unit. Only outgoing words are ever rejected: every `OP` and every
incoming word has a row (R57, R59, R60). -/
inductive Reject where
  /-- Byte 0 is one of the 237 values that are never emitted (R56, R58). -/
  | reservedByte0 (b0 : Byte)
  /-- An LED word whose byte 1 has bit 7 or bit 3 set (R49). -/
  | reservedPayloadBit (b1 : Byte)
deriving DecidableEq, Repr

end Sys2Proof
end

