-- ==== Sys2Proof/Machine/State.lean ====
section
/-! DEFINITION. The state of the engine (spec/10_state.md R11: the complete list), its two neighbours
held as plain data (the host's items and the transport's answers and calls, R6), the reasons a step
can stop, and the state after reset (spec/70_reset_and_hazards.md R122). -/

namespace Sys2Proof.Machine

/-- `PHASE` (R19): `New` (reset, never opened), `Open`, `Done` (closed, terminal). -/
inductive Phase where
  | fresh
  | opened
  | closed
deriving DecidableEq, Repr

/-- The configuration record `CFG` (R12 to R16). -/
structure Cfg where
  rowRev : Bool
  colRev : Bool
  swap : Bool
  ftEn : Bool
  rows : BitVec 4
  cols : BitVec 4
deriving DecidableEq, Repr

/-- The legal extents of R16: both 1 to 8. -/
abbrev Cfg.Legal (c : Cfg) : Prop :=
  1 ≤ c.rows.toNat ∧ c.rows.toNat ≤ 8 ∧ 1 ≤ c.cols.toNat ∧ c.cols.toNat ≤ 8

/-- `EV_KIND` (R22): 0 is ButtonDown, 1 is ButtonUp. -/
inductive EvKind where
  | buttonDown
  | buttonUp
deriving DecidableEq, Repr

/-- The one bit of `EV_KIND` (R22, D7). -/
def EvKind.code : EvKind → BitVec 1
  | .buttonDown => 0
  | .buttonUp => 1

/-- The response latches (R22, R47). `STATUS` is a 2-bit code (R107). -/
structure Response where
  status : BitVec 2
  count : Byte
  evValid : Bool
  evKind : EvKind
  evX : Byte
  evY : Byte
deriving DecidableEq, Repr

/-- The working buffer `WB` as a list of (index, byte): strictly rising indices below 8; an index that
is not listed has no value (R20, R27; log 2). -/
abbrev Memory := List Host.Cell

/-- One call of a transport primitive with the transport's answer (R30 to R33): `n` is the number of
bytes accepted; `true` is `ok`. -/
inductive Call where
  | txOpen (ok : Bool)
  | txClose (ok : Bool)
  | txWrite (b0 b1 : Byte) (n : Fin 3)
  | rxRead (a : ReadAnswer)
deriving DecidableEq, Repr

/-- The transport as the engine sees it (R30 to R33, U14): the answers it gives next, one list for each
primitive; how many have been drawn, which numbers the free values given past a list's end (log 3);
and the record of the calls made, oldest first (R40; log 7). -/
structure Transport where
  opens : List Bool
  closes : List Bool
  writes : List (Fin 3)
  reads : List ReadAnswer
  drawn : Nat
  calls : List Call
deriving DecidableEq, Repr

/-- What the host side presents (R6, R123): a unit of encoding, or the reset input between commands.
A session of the spec presents commands and resets only; a wire word presented by itself is the
model's word-level step (log 6). -/
inductive HostItem where
  | present (u : EncUnit)
  | reset
deriving DecidableEq, Repr

/-- The state: the elements of R11 under their own names, then the model's own two fields. -/
structure State where
  phase : Phase
  cfg : Cfg
  wb : Memory
  idx : BitVec 4
  cnt : Byte
  txf : Bool
  lat : Latches
  resp : Response
  host : List HostItem
  tr : Transport
deriving DecidableEq, Repr

/-- Faults: accesses to the working buffer that the spec says do not occur. -/
inductive Fault where
  /-- A read of a buffer byte that nothing has written and so has no value (R27). Raised by a buffer
  read; safe: the model stops. No instruction reaches it, since FRAME writes all 8 bytes first (R88). -/
  | bufferByteUnwritten
  /-- An access at an index of 8 or more, which does not exist (R28). Raised by a buffer access; safe:
  the model stops. No instruction reaches it. -/
  | bufferIndexAbsent
deriving DecidableEq, Repr

/-- Refusals: what the spec gives no behaviour, not even a failure status (its word is `refuse`). -/
inductive Refusal where
  /-- An instruction whose meaning is not written yet. Raised by exec's arm; safe. -/
  | notModelled (mnemonic : String)
  /-- EVT, CLEAR, INTENSITY, MODE, LED, ROW, COL or FRAME when `PHASE` is not `Open` (R102, U2). Raised
  by the gate of these commands; safe: the model stops. -/
  | commandOutsideOpen
  /-- OPEN when `PHASE` is not `New` (R104, U3). Raised by OPEN; safe: the model stops. -/
  | openOutsideNew
  /-- CLOSE when `PHASE` is not `Open` (R104, U3). Raised by CLOSE; safe: the model stops. -/
  | closeOutsideOpen
  /-- OPEN with `ROWS` or `COLS` equal to 0 or above 8 (R98, U4). Raised by OPEN; safe: the model stops. -/
  | extentOutOfRange
  /-- A wire word offered or read when `PHASE` is not `Open`: the engine does not hold the transport
  (R19, R30). Raised by a word-level step (log 6); safe: the model stops. -/
  | wordOutsideOpen
  /-- An outgoing word that the decoder rejects, presented to be run (R58). Raised by the step; safe:
  the model stops. -/
  | reservedEncoding (r : Reject)
deriving DecidableEq, Repr

/-- The outcome of an instruction. -/
abbrev Result := Host.Outcome State Fault Refusal

/-- `CFG` at reset. R27 gives no value. DESIGN CHOICE zeros, unsafe (log 1); nothing reads it before
OPEN writes it. -/
def Cfg.reset : Cfg := ⟨false, false, false, false, 0, 0⟩

/-- The operand latches at reset. R27 gives no value. DESIGN CHOICE zeros, unsafe (log 1). -/
def latchesReset : Latches :=
  ⟨0, 0, 0, false, 0, 0, 0, 0, false, 0, 0, ⟨0, 0, 0, 0, 0, 0, 0, 0⟩, 0⟩

/-- The response latches at reset. R27 gives no value. DESIGN CHOICE zeros, unsafe (log 1). -/
def Response.reset : Response := ⟨0, 0, false, .buttonDown, 0, 0⟩

/-- A transport with no listed answer and no call made (log 3). -/
def Transport.initial : Transport := ⟨[], [], [], [], 0, []⟩

/-- The machine right after reset: `PHASE = New` and no byte of `WB` has a value (R122, R27); the other
elements at the values of log 1; the host has presented nothing and no primitive has been called. -/
def State.reset : State where
  phase := .fresh
  cfg := Cfg.reset
  wb := []
  idx := 0
  cnt := 0
  txf := false
  lat := latchesReset
  resp := Response.reset
  host := []
  tr := Transport.initial

end Sys2Proof.Machine
end

