-- ==== Sys2Proof/Machine/Flags.lean ====
section
/-! DEFINITION. The engine has no condition codes and no command has a flag side effect
(spec/10_state.md R25). What it computes beside its data is here: the status codes (spec/60_exceptions.md
R107), the two accumulators of a command `CNT` and `TXF` (R21), and the status they decide (R77). -/

namespace Sys2Proof.Machine

/-- `OK` (R107). -/
def statusOk : BitVec 2 := 0

/-- `TransportFailure` (R107, R108). -/
def statusTransportFailure : BitVec 2 := 1

/-- `UnsupportedOperation` (R107, R109). -/
def statusUnsupported : BitVec 2 := 2

/-- `CNT` after a word of which the transport accepted `n` bytes (R21, R77). -/
def cntAfter (cnt : Byte) (n : Fin 3) : Byte := cnt + BitVec.ofNat 8 n.val

/-- `TXF` after a word of which the transport accepted `n` bytes (R21, R77): it stays set. -/
def txfAfter (txf : Bool) (n : Fin 3) : Bool := txf || decide (n ≠ 2)

/-- The status the epilogue writes (R77). -/
def statusOfTxf (txf : Bool) : BitVec 2 := if txf then statusTransportFailure else statusOk

/-- The status of a single open or close primitive (R99 to R101). -/
def statusOfAnswer (ok : Bool) : BitVec 2 := if ok then statusOk else statusTransportFailure

end Sys2Proof.Machine
end

