-- ==== Sys2Proof/WellFormed.lean ====
section
/-! DEFINITION. Well-formed instructions. The widths of the fields say almost everything; what is left
is the legal range of the grid extent that OPEN carries (spec/10_state.md R16, spec/43_session.md R98). -/

namespace Sys2Proof

/-- The legal values of `ROWS` and of `COLS`: 1 to 8 (R16). -/
def extentLegal (e : BitVec 4) : Bool := decide (1 ≤ e.toNat) && decide (e.toNat ≤ 8)

/-- OPEN carries legal extents: `ROWS` in bits 7:4 of `CFGIN`, `COLS` in bits 11:8 (R24, R98). Every
other instruction is well-formed with any operands. -/
def Instr.wf : Instr → Bool
  | .cmdOpen c => extentLegal (c.extractLsb' 4 4) && extentLegal (c.extractLsb' 8 4)
  | .cmdClose => true
  | .cmdEvt => true
  | .cmdClear _ => true
  | .cmdIntensity _ => true
  | .cmdMode _ => true
  | .cmdLed _ _ _ => true
  | .cmdRow _ _ => true
  | .cmdCol _ _ => true
  | .cmdFrame _ _ _ => true
  | .unrecognizedAB _ => true
  | .unrecognizedCF _ => true
  | .wLedOn _ _ => true
  | .wLedOff _ _ => true
  | .wRow _ _ => true
  | .wCol _ _ => true
  | .wIntensity _ => true
  | .eDown _ _ _ => true
  | .eUp _ _ _ => true
  | .eUnknown23 _ _ _ => true
  | .eUnknown47 _ _ _ => true
  | .eUnknown8F _ _ _ => true

end Sys2Proof
end

