-- ==== Sys2Proof/Decode.lean ====
section
/-! DEFINITION. The decoder of the three kinds of units (spec/30_encoding.md R44 to R61), total, which
rejects by name; then the encoder, written from the same tables; then the reading of a word numbered as
spec/opcode_table.json numbers it. -/

namespace Sys2Proof

/-- A host command (R46): `OP` selects the row, the row names the latches that are read. The codes `0xA`
to `0xF` are the unrecognised ones (R59), split as the opcode table splits them. -/
def decodeCommand (l : Latches) : Instr :=
  if l.op = 0x0 then .cmdOpen l.cfgin
  else if l.op = 0x1 then .cmdClose
  else if l.op = 0x2 then .cmdEvt
  else if l.op = 0x3 then .cmdClear l.stat
  else if l.op = 0x4 then .cmdIntensity l.level
  else if l.op = 0x5 then .cmdMode l.modev
  else if l.op = 0x6 then .cmdLed l.x l.y l.on
  else if l.op = 0x7 then .cmdRow l.addr l.data
  else if l.op = 0x8 then .cmdCol l.addr l.data
  else if l.op = 0x9 then .cmdFrame l.xoff l.yoff l.frame
  else if l.op.extractLsb' 1 3 = 0x5 then .unrecognizedAB (l.op.extractLsb' 0 1)
  else .unrecognizedCF (l.op.extractLsb' 0 2)

/-- The payload of an LED word (R49): bits 7 and 3 are 0, 6:4 is `xr`, 2:0 is `yr`. -/
def decodeLedPayload (mk : BitVec 3 → BitVec 3 → Instr) (b1 : Byte) : Except Reject Instr :=
  if b1.extractLsb' 7 1 = 0x0 ∧ b1.extractLsb' 3 1 = 0x0 then
    .ok (mk (b1.extractLsb' 4 3) (b1.extractLsb' 0 3))
  else .error (.reservedPayloadBit b1)

/-- An outgoing word (R49 to R51, R56): the whole byte 0 of an intensity or LED word is tested, and bit
3 of byte 0 is 0 in a line write, so `0x0A` is no row write (R61). -/
def decodeOutgoing (b0 b1 : Byte) : Except Reject Instr :=
  if b0 = Config.opbIntensity then .ok (.wIntensity b1)
  else if b0 = Config.opcLedOn ++ (0x0 : Nibble) then decodeLedPayload .wLedOn b1
  else if b0 = Config.opcLedOff ++ (0x0 : Nibble) then decodeLedPayload .wLedOff b1
  else if b0.extractLsb' 3 5 = Config.opcRow ++ (0x0 : BitVec 1) then
    .ok (.wRow (b0.extractLsb' 0 3) b1)
  else if b0.extractLsb' 3 5 = Config.opcCol ++ (0x0 : BitVec 1) then
    .ok (.wCol (b0.extractLsb' 0 3) b1)
  else .error (.reservedByte0 b0)

/-- An incoming word (R52, R57): the high nibble of byte 0 is the family; every family but the two of
the buttons is one of the tolerated ranges (R60). -/
def decodeIncoming (b0 b1 : Byte) : Instr :=
  let fam : Nibble := b0.extractLsb' 4 4
  let low : Nibble := b0.extractLsb' 0 4
  if fam = Config.famDown then .eDown low (b1.extractLsb' 4 4) (b1.extractLsb' 0 4)
  else if fam = Config.famUp then .eUp low (b1.extractLsb' 4 4) (b1.extractLsb' 0 4)
  else if fam.extractLsb' 1 3 = 0x1 then .eUnknown23 (fam.extractLsb' 0 1) low b1
  else if fam.extractLsb' 2 2 = 0x1 then .eUnknown47 (fam.extractLsb' 0 2) low b1
  else .eUnknown8F (fam.extractLsb' 0 3) low b1

/-- The decoder of the engine's units (R44). -/
def decode : EncUnit → Except Reject Instr
  | .command l => .ok (decodeCommand l)
  | .outgoing b0 b1 => decodeOutgoing b0 b1
  | .incoming b0 b1 => .ok (decodeIncoming b0 b1)

/-- Operand latches that are all zero; a command's encoding fills the ones its row names (R45). -/
def Latches.zero : Latches :=
  ⟨0, 0, 0, false, 0, 0, 0, 0, false, 0, 0, ⟨0, 0, 0, 0, 0, 0, 0, 0⟩, 0⟩

/-- Byte 1 of an LED word (R49): the two zero bits and the two 3-bit coordinates. -/
def encodeLedPayload (xr yr : BitVec 3) : Byte := (0x0 : BitVec 1) ++ xr ++ (0x0 : BitVec 1) ++ yr

/-- The encoder: the unit of an instruction, from R46, R49 to R52 and the opcode table. -/
def encode : Instr → EncUnit
  | .cmdOpen c => .command { Latches.zero with op := 0x0, cfgin := c }
  | .cmdClose => .command { Latches.zero with op := 0x1 }
  | .cmdEvt => .command { Latches.zero with op := 0x2 }
  | .cmdClear st => .command { Latches.zero with op := 0x3, stat := st }
  | .cmdIntensity v => .command { Latches.zero with op := 0x4, level := v }
  | .cmdMode v => .command { Latches.zero with op := 0x5, modev := v }
  | .cmdLed x y on => .command { Latches.zero with op := 0x6, x := x, y := y, on := on }
  | .cmdRow a d => .command { Latches.zero with op := 0x7, addr := a, data := d }
  | .cmdCol a d => .command { Latches.zero with op := 0x8, addr := a, data := d }
  | .cmdFrame xo yo f => .command { Latches.zero with op := 0x9, xoff := xo, yoff := yo, frame := f }
  | .unrecognizedAB low => .command { Latches.zero with op := (0x5 : BitVec 3) ++ low }
  | .unrecognizedCF low => .command { Latches.zero with op := (0x3 : BitVec 2) ++ low }
  | .wLedOn xr yr => .outgoing (Config.opcLedOn ++ (0x0 : Nibble)) (encodeLedPayload xr yr)
  | .wLedOff xr yr => .outgoing (Config.opcLedOff ++ (0x0 : Nibble)) (encodeLedPayload xr yr)
  | .wRow a d => .outgoing (Config.opcRow ++ (0x0 : BitVec 1) ++ a) d
  | .wCol a d => .outgoing (Config.opcCol ++ (0x0 : BitVec 1) ++ a) d
  | .wIntensity v => .outgoing Config.opbIntensity v
  | .eDown low xd yd => .incoming (Config.famDown ++ low) (xd ++ yd)
  | .eUp low xd yd => .incoming (Config.famUp ++ low) (xd ++ yd)
  | .eUnknown23 f low p => .incoming ((0x1 : BitVec 3) ++ f ++ low) p
  | .eUnknown47 f low p => .incoming ((0x1 : BitVec 2) ++ f ++ low) p
  | .eUnknown8F f low p => .incoming ((0x1 : BitVec 1) ++ f ++ low) p

/-- Whether the decoder takes the two bytes for an outgoing word. -/
def outgoingAccepts (b0 b1 : Byte) : Bool :=
  match decodeOutgoing b0 b1 with
  | .ok _ => true
  | .error _ => false

/-- The unit that a word of the opcode table stands for: a host command is the code `OP` (4 bits, in one
byte) with operand latches of zeros; a 16-bit word is byte0 * 256 + byte1 (R7). The table's outgoing and
incoming words are numbered alike and stand on two streams (R57), which the number does not name.
DESIGN CHOICE (log 13): a word that is an outgoing word is read as one, every other as an incoming
one. -/
def tableUnit (nbits w : Nat) : Option EncUnit :=
  if nbits = 4 ∨ nbits = 8 then
    if w < 16 then some (.command { Latches.zero with op := BitVec.ofNat 4 w }) else none
  else if nbits = 16 then
    if w < 65536 then
      let b0 := BitVec.ofNat 8 (w / 256)
      let b1 := BitVec.ofNat 8 (w % 256)
      if outgoingAccepts b0 b1 then some (.outgoing b0 b1) else some (.incoming b0 b1)
    else none
  else none

/-- The instruction the decoder reads from a word of the opcode table. -/
def decodeTableWord (nbits w : Nat) : Option Instr :=
  match tableUnit nbits w with
  | none => none
  | some u =>
    match decode u with
    | .ok i => some i
    | .error _ => none

end Sys2Proof
end

