-- ==== Sys2Proof/Machine/Operands.lean ====
section
/-! DEFINITION. Operand forms: the packed image of the configuration (spec/10_state.md R24), the bytes
of a frame operand (spec/20_memory.md R36), the assembly of outgoing bytes and the unpacking of incoming
ones (spec/30_encoding.md R53 to R55). -/

namespace Sys2Proof.Machine

/-- The configuration that `CFGIN` carries (R24, R99). -/
def cfgOfImage (c : BitVec 12) : Cfg where
  rowRev := c.getLsbD 0
  colRev := c.getLsbD 1
  swap := c.getLsbD 2
  ftEn := c.getLsbD 3
  rows := c.extractLsb' 4 4
  cols := c.extractLsb' 8 4

/-- The packed image of a configuration (R24). -/
def imageOfCfg (c : Cfg) : BitVec 12 :=
  c.cols ++ c.rows ++ BitVec.ofBool c.ftEn ++ BitVec.ofBool c.swap ++ BitVec.ofBool c.colRev ++
    BitVec.ofBool c.rowRev

/-- The bytes of a frame in index order (R36). -/
def frameBytes (f : Bytes8) : List Byte := [f.b0, f.b1, f.b2, f.b3, f.b4, f.b5, f.b6, f.b7]

/-- `mask3` (R73). -/
def mask3 (v : Byte) : Byte := v &&& 0x07

/-- The opcode nibble in the high half of byte 0, the low half zero: `opc << 4` as a byte. -/
def opcodeByte (opc : Nibble) : Byte := opc.setWidth 8 <<< 4

/-- Byte 1 of an LED word from physical coordinates (R53). -/
def ledPayload (xr yr : Byte) : Byte := mask3 xr <<< 4 ||| mask3 yr

/-- Byte 0 of a line write from the opcode nibble and the physical line index (R54). -/
def lineByte0 (opc : Nibble) (a : Byte) : Byte := opcodeByte opc ||| mask3 a

/-- `xd`, the high nibble of an incoming byte 1, extended with zeros (R55). -/
def incomingX (b1 : Byte) : Byte := (b1.extractLsb' 4 4).setWidth 8

/-- `yd`, the low nibble of an incoming byte 1, extended with zeros (R55). -/
def incomingY (b1 : Byte) : Byte := (b1.extractLsb' 0 4).setWidth 8

end Sys2Proof.Machine
end

