-- ==== Sys2Proof/Machine/Transform.lean ====
section
/-! DEFINITION. The transform unit (spec/40_transform.md): pure functions of their arguments and of the
configuration. The formula of `rotate` is the spec's decision D9 (log 10). -/

namespace Sys2Proof.Machine

/-- `rev8` (R64): the sum over `i` in 0 to 7 of `b[i] << (7 - i)`. -/
def rev8 (b : Byte) : Byte :=
  ((List.range 8).map fun i => ((b >>> i) &&& (1 : Byte)) <<< (7 - i)).foldl (· + ·) (0 : Byte)

/-- `mx` (R65): mirror the column coordinate over the logical width, modulo 256. -/
def mx (c : Cfg) (x : Byte) : Byte := if c.rowRev then c.cols.setWidth 8 - 1 - x else x

/-- `my` (R66): mirror the row coordinate over the logical height, modulo 256. -/
def my (c : Cfg) (y : Byte) : Byte := if c.colRev then c.rows.setWidth 8 - 1 - y else y

/-- `rotate` (R67). -/
def rotate (c : Cfg) (x y : Byte) : Byte × Byte :=
  let a := mx c x
  let b := my c y
  if c.swap then (b, a) else (a, b)

/-- `unrotate` (R68). -/
def unrotate (c : Cfg) (xr yr : Byte) : Byte × Byte :=
  let p := if c.swap then (yr, xr) else (xr, yr)
  (mx c p.1, my c p.2)

/-- Which kind of line a command addresses (R10). -/
inductive Axis where
  | row
  | col
deriving DecidableEq, Repr

/-- `AxisAddr` (R70): the index goes to both inputs of `rotate`, and the output that descends from the
input of the command's axis is kept. -/
def axisAddr (c : Cfg) (axis : Axis) (a : Byte) : Byte :=
  let p := rotate c a a
  match axis with
  | .row => if c.swap then p.1 else p.2
  | .col => if c.swap then p.2 else p.1

/-- `AxisPayload` (R71): the axis is the command's, before any relabel. -/
def axisPayload (c : Cfg) (axis : Axis) (d : Byte) : Byte :=
  match axis with
  | .row => if c.rowRev then rev8 d else d
  | .col => if c.colRev then rev8 d else d

/-- `AxisOpcode` (R72): the swap flag toggles the nibble. -/
def axisOpcode (c : Cfg) (axis : Axis) : Nibble :=
  let opc := match axis with
    | .row => Config.opcRow
    | .col => Config.opcCol
  if c.swap then opc ^^^ 0x8 else opc

/-- `LineWord` (R84): the standard line-write path. -/
def lineWord (c : Cfg) (axis : Axis) (a d : Byte) : Byte × Byte :=
  (lineByte0 (axisOpcode c axis) (axisAddr c axis a), axisPayload c axis d)

/-- The word of LED (R82): the opcode by `ON`, the rotated coordinates packed. -/
def ledWord (c : Cfg) (x y : Byte) (on : Bool) : Byte × Byte :=
  let p := rotate c x y
  (opcodeByte (if on then Config.opcLedOn else Config.opcLedOff), ledPayload p.1 p.2)

end Sys2Proof.Machine
end

