-- ==== Sys2Proof/Machine/Ops.lean ====
section
/-! DEFINITION. The named operations: the working buffer (spec/20_memory.md R28), the four transport
primitives (R30 to R33), the frame of an emitting command (spec/41_encoder_commands.md R77), the one
way a failure is reported (spec/60_exceptions.md R107: there is no trap to take and, R115, none to
return from), the phase gate (spec/43_session.md R102), and what the host side presents (R123). -/

namespace Sys2Proof.Machine

/-! ### The working buffer -/

/-- The byte listed at an index, if one is. -/
def Memory.lookup : Memory → Nat → Option Byte
  | [], _ => none
  | c :: m, a => if c.1 = a then some c.2 else Memory.lookup m a

/-- Write one byte, keeping the indices strictly rising. -/
def Memory.store : Memory → Nat → Byte → Memory
  | [], a, v => [(a, v)]
  | c :: m, a, v =>
    if a < c.1 then (a, v) :: c :: m
    else if a = c.1 then (a, v) :: m
    else c :: Memory.store m a v

/-- The canonical form: indices strictly rising, every one below 8. (An index that is not listed has no
value, so no entry can equal it.) -/
def Memory.wf (m : Memory) : Bool :=
  decide ((m.map Prod.fst).Pairwise (· < ·)) && m.all fun c => decide (c.1 < 8)

/-- `MemRead(i, 1)` (R28). -/
def memRead (a : Nat) (s : State) : Except Fault Byte :=
  if a < 8 then
    match Memory.lookup s.wb a with
    | some v => .ok v
    | none => .error .bufferByteUnwritten
  else .error .bufferIndexAbsent

/-- `MemWrite(i, 1, v)` (R28). -/
def memWrite (a : Nat) (v : Byte) (s : State) : Except Fault State :=
  if a < 8 then .ok { s with wb := Memory.store s.wb a v } else .error .bufferIndexAbsent

/-- Write bytes one by one at consecutive indices from `a` on (R36: byte by byte in index order). -/
def writeBytes : List Byte → Nat → State → Except Fault State
  | [], _, s => .ok s
  | v :: vs, a, s =>
    match memWrite a v s with
    | .ok t => writeBytes vs (a + 1) t
    | .error f => .error f

/-! ### Transport primitives -/

/-- The first listed answer, or the free value `free` past the end of the list; and the rest. -/
def draw {α : Type} (answers : List α) (free : α) : α × List α :=
  match answers with
  | [] => (free, [])
  | a :: rest => (a, rest)

/-- `TxOpen()` (R32). -/
def txOpen (s : State) : Bool × State :=
  let d := draw s.tr.opens (Config.txOpenFree s.tr.drawn)
  (d.1, { s with tr := { s.tr with
    opens := d.2, drawn := s.tr.drawn + 1, calls := s.tr.calls ++ [.txOpen d.1] } })

/-- `TxClose()` (R33). -/
def txClose (s : State) : Bool × State :=
  let d := draw s.tr.closes (Config.txCloseFree s.tr.drawn)
  (d.1, { s with tr := { s.tr with
    closes := d.2, drawn := s.tr.drawn + 1, calls := s.tr.calls ++ [.txClose d.1] } })

/-- `TxWrite(b0, b1)` (R30): one request for both bytes, never retried. -/
def txWrite (w : Byte × Byte) (s : State) : Fin 3 × State :=
  let d := draw s.tr.writes (Config.txWriteFree s.tr.drawn)
  (d.1, { s with tr := { s.tr with
    writes := d.2, drawn := s.tr.drawn + 1, calls := s.tr.calls ++ [.txWrite w.1 w.2 d.1] } })

/-- The answer to an `RxRead()` (R31), drawn; the call is recorded by `recordRead`. -/
def drawRead (s : State) : ReadAnswer × State :=
  let d := draw s.tr.reads (Config.rxReadFree s.tr.drawn)
  (d.1, { s with tr := { s.tr with reads := d.2, drawn := s.tr.drawn + 1 } })

/-- Record that an `RxRead()` has returned this answer (R31). -/
def recordRead (a : ReadAnswer) (s : State) : State :=
  { s with tr := { s.tr with calls := s.tr.calls ++ [.rxRead a] } }

/-! ### The frame of an emitting command (R77) -/

/-- The prologue: `CNT <- 0; TXF <- 0`. -/
def prologue (s : State) : State := { s with cnt := 0, txf := false }

/-- `emit(b0, b1)`: offer the word, add the bytes accepted to `CNT`, note a failure in `TXF`. -/
def emit (w : Byte × Byte) (s : State) : State :=
  let r := txWrite w s
  { r.2 with cnt := cntAfter r.2.cnt r.1, txf := txfAfter r.2.txf r.1 }

/-- Write a response that reports no event: `STATUS`, `COUNT`, `EV_VALID <- 0`. The other event latches
are meaningful only when `EV_VALID = 1` (R22) and keep what they held (log 11). -/
def respond (status : BitVec 2) (count : Byte) (s : State) : State :=
  { s with resp := { s.resp with status := status, count := count, evValid := false } }

/-- The epilogue: `COUNT <- CNT`, `STATUS` by `TXF`, `EV_VALID <- 0`. -/
def epilogue (s : State) : State := respond (statusOfTxf s.txf) s.cnt s

/-- A command that emits the one word `w`. -/
def emitOne (w : Byte × Byte) (s : State) : State := epilogue (emit w (prologue s))

/-- `fail <Status>` of a command with no prologue (R107): the response alone, `COUNT = 0`. Nothing is
saved, no mode changes, no control transfers (R114). -/
def failWith (status : BitVec 2) (s : State) : State := respond status 0 s

/-! ### Events (R94) -/

/-- The response `NO_EVENT` (R94): `STATUS = OK`. -/
def noEvent (s : State) : State := respond statusOk 0 s

/-- The response to a button word (R93, R94): the device coordinates go through `unrotate`, unmasked. -/
def buttonEvent (kind : EvKind) (xd yd : Byte) (s : State) : State :=
  let p := unrotate s.cfg xd yd
  { s with resp := { status := statusOk, count := 0, evValid := true, evKind := kind,
                     evX := p.1, evY := p.2 } }

/-! ### Phase gates -/

/-- The eight commands that have a meaning only when `PHASE = Open` (R102). -/
def inOpen (s : State) (r : Result) : Result :=
  if s.phase = .opened then r else .refused .commandOutsideOpen

/-- A wire word is offered or read only while the engine holds the transport (R19, R30; log 6). -/
def wordInOpen (s : State) (t : State) : Result :=
  if s.phase = .opened then .next t else .refused .wordOutsideOpen

/-- A buffer operation's outcome as an instruction's, with what follows it. -/
def finish (r : Except Fault State) (k : State → State) : Result :=
  match r with
  | .ok t => .next (k t)
  | .error f => .fault f

/-! ### What the host side presents -/

/-- The reset input (R122, R123): every element of the engine as after reset, no primitive called; the
host and the transport keep theirs. -/
def engineReset (s : State) : State := { State.reset with host := s.host, tr := s.tr }

/-- A presented command is loaded into the operand latches, whole at once (R17, R45); a wire word loads
none. -/
def loadLatches (u : EncUnit) (s : State) : State :=
  match u with
  | .command l => { s with lat := l }
  | .outgoing _ _ => s
  | .incoming _ _ => s

/-- The machine as an instruction decoded from the presented unit `u` finds it: the item taken from the
host, the latches loaded. -/
def accept (u : EncUnit) (rest : List HostItem) (s : State) : State :=
  loadLatches u { s with host := rest }

end Sys2Proof.Machine
end

