-- ==== Sys2Proof/Machine/Encoder.lean ====
section
/-! DEFINITION. The command encoder (spec/41_encoder_commands.md): CLEAR, INTENSITY, MODE, LED, ROW,
COL, FRAME. -/

namespace Sys2Proof.Machine

/-- One round of CLEAR's loop (R78): a raw row-write word with payload 0, no transform. -/
def clearRound (s : State) : State :=
  let t := emit (opcodeByte Config.opcRow ||| s.idx.setWidth 8, 0) s
  { t with idx := t.idx + 1 }

/-- CLEAR's loop, `n` rounds to go. `IDX` starts at 0 and grows by 1, so `while IDX < ROWS` runs `ROWS`
times (R18, R78). -/
def clearRounds : Nat → State → State
  | 0, s => s
  | n + 1, s => clearRounds n (clearRound s)

/-- CLEAR (R78, R79). `STAT` is read by nothing. -/
def execClear (_stat : Bool) (s : State) : Result :=
  inOpen s (.next (epilogue (clearRounds s.cfg.rows.toNat { prologue s with idx := 0 })))

/-- INTENSITY (R80): all 8 bits of `LEVEL`, unchecked. -/
def execIntensity (level : Byte) (s : State) : Result :=
  inOpen s (.next (emitOne (Config.opbIntensity, level) s))

/-- MODE (R81): a no-op that returns success. `MODEV` is read by nothing. -/
def execMode (_modev : Byte) (s : State) : Result :=
  inOpen s (.next (epilogue (prologue s)))

/-- LED (R82, R83). -/
def execLed (x y : Byte) (on : Bool) (s : State) : Result :=
  inOpen s (.next (emitOne (ledWord s.cfg x y on) s))

/-- ROW (R85, R87). -/
def execRow (addr data : Byte) (s : State) : Result :=
  inOpen s (.next (emitOne (lineWord s.cfg .row addr data) s))

/-- COL (R86, R87). -/
def execCol (addr data : Byte) (s : State) : Result :=
  inOpen s (.next (emitOne (lineWord s.cfg .col addr data) s))

/-- FRAME's second part (R89), `n` rounds to go: the buffer byte at `IDX` through the standard
row-write path. -/
def frameRounds : Nat → State → Except Fault State
  | 0, s => .ok s
  | n + 1, s =>
    match memRead s.idx.toNat s with
    | .ok d =>
      let t := emit (lineWord s.cfg .row (s.idx.setWidth 8) d) s
      frameRounds n { t with idx := t.idx + 1 }
    | .error f => .error f

/-- What FRAME puts into the working buffer (R88): the frame, through the transform when `FT_EN = 1`. -/
def frameSource (ft : Byte → Byte → Bytes8 → Bytes8) (c : Cfg) (xoff yoff : Byte) (f : Bytes8) :
    Bytes8 :=
  if c.ftEn then ft xoff yoff f else f

/-- The body of FRAME (R88, R89) with the frame transform as an argument: all 8 bytes are written to the
buffer, then 8 words are emitted, whatever `ROWS` is. -/
def frameBody (ft : Byte → Byte → Bytes8 → Bytes8) (xoff yoff : Byte) (f : Bytes8) (s : State) :
    Except Fault State :=
  match writeBytes (frameBytes (frameSource ft s.cfg xoff yoff f)) 0 (prologue s) with
  | .ok t => frameRounds 8 { t with idx := 0 }
  | .error e => .error e

/-- FRAME (R88, R89) with the parameter `FT` (R4) of the configuration. -/
def execFrame (xoff yoff : Byte) (f : Bytes8) (s : State) : Result :=
  inOpen s (finish (frameBody Config.frameTransform xoff yoff f s) epilogue)

end Sys2Proof.Machine
end

