-- ==== Sys2Proof/Machine/Event.lean ====
section
/-! DEFINITION. The event decoder (spec/42_event_decode.md): what becomes of an incoming word, and EVT,
which reads one. An incoming word as an instruction of its own is the tail of EVT after its `RxRead` has
answered with that word (log 6). -/

namespace Sys2Proof.Machine

/-- A button word that has been read (R92 to R94): the read is recorded, the event is the response. -/
def buttonWord (kind : EvKind) (b0 : Byte) (xd yd : Nibble) (s : State) : State :=
  buttonEvent kind (xd.setWidth 8) (yd.setWidth 8) (recordRead (.word b0 (xd ++ yd)) s)

/-- A word of an unknown family that has been read (R95): consumed and dropped, no event. -/
def droppedWord (b0 b1 : Byte) (s : State) : State := noEvent (recordRead (.word b0 b1) s)

/-- E.DOWN (R52, R92 to R94). The low nibble of byte 0 is not examined. -/
def execEDown (low xd yd : Nibble) (s : State) : Result :=
  wordInOpen s (buttonWord .buttonDown (Config.famDown ++ low) xd yd s)

/-- E.UP (R52, R92 to R94). -/
def execEUp (low xd yd : Nibble) (s : State) : Result :=
  wordInOpen s (buttonWord .buttonUp (Config.famUp ++ low) xd yd s)

/-- E.UNKNOWN_2_3 (R60, R95). -/
def execEUnknown23 (fam : BitVec 1) (low : Nibble) (payload : Byte) (s : State) : Result :=
  wordInOpen s (droppedWord ((0x1 : BitVec 3) ++ fam ++ low) payload s)

/-- E.UNKNOWN_4_7 (R60, R95). -/
def execEUnknown47 (fam : BitVec 2) (low : Nibble) (payload : Byte) (s : State) : Result :=
  wordInOpen s (droppedWord ((0x1 : BitVec 2) ++ fam ++ low) payload s)

/-- E.UNKNOWN_8_F (R60, R95). -/
def execEUnknown8F (fam : BitVec 3) (low : Nibble) (payload : Byte) (s : State) : Result :=
  wordInOpen s (droppedWord ((0x1 : BitVec 1) ++ fam ++ low) payload s)

/-- Steps 2 to 4 of EVT on the two bytes read (R92 to R95): the family of byte 0 decides. -/
def eventOfWord (b0 b1 : Byte) (s : State) : State :=
  let fam : Nibble := b0.extractLsb' 4 4
  if fam = Config.famDown then buttonEvent .buttonDown (incomingX b1) (incomingY b1) s
  else if fam = Config.famUp then buttonEvent .buttonUp (incomingX b1) (incomingY b1) s
  else noEvent s

/-- What EVT makes of an answer of `RxRead` (R91, R96): a short read is no event and its byte is lost. -/
def eventOfAnswer (a : ReadAnswer) (s : State) : State :=
  match a with
  | .nothing => noEvent s
  | .oneByte _ => noEvent s
  | .word b0 b1 => eventOfWord b0 b1 s

/-- EVT (R91 to R96): one `RxRead`, no `TxWrite`; `CNT` and `TXF` are not used. -/
def execEvt (s : State) : Result :=
  let r := drawRead s
  inOpen s (.next (eventOfAnswer r.1 (recordRead r.1 r.2)))

end Sys2Proof.Machine
end

