-- ==== Sys2Proof/Machine/Session.lean ====
section
/-! DEFINITION. The session register: OPEN, CLOSE (spec/43_session.md), and the unrecognised operation
codes (spec/60_exceptions.md R109). -/

namespace Sys2Proof.Machine

/-- OPEN (R98 to R100): only in `New`, only with legal extents (R104, U4). One `TxOpen`; on `ok` the
configuration is written and the phase becomes `Open`; on `fail` nothing changes but the response. -/
def execOpen (cfgin : BitVec 12) (s : State) : Result :=
  if s.phase = .fresh then
    if (cfgOfImage cfgin).Legal then
      let r := txOpen s
      if r.1 then
        .next (respond statusOk 0 { r.2 with cfg := cfgOfImage cfgin, phase := .opened })
      else .next (failWith statusTransportFailure r.2)
    else .refused .extentOutOfRange
  else .refused .openOutsideNew

/-- CLOSE (R101): only in `Open`. One `TxClose`; the phase becomes `Done` whatever the answer; `CFG`
keeps its values. -/
def execClose (s : State) : Result :=
  if s.phase = .opened then
    let r := txClose s
    .next (respond (statusOfAnswer r.1) 0 { r.2 with phase := .closed })
  else .refused .closeOutsideOpen

/-- `OP` in `0xA`, `0xB` (R59, R109): `UnsupportedOperation` in every phase, nothing else. -/
def execUnrecognizedAB (_low : BitVec 1) (s : State) : Result :=
  .next (failWith statusUnsupported s)

/-- `OP` in `0xC` to `0xF` (R59, R109): `UnsupportedOperation` in every phase, nothing else. -/
def execUnrecognizedCF (_low : BitVec 2) (s : State) : Result :=
  .next (failWith statusUnsupported s)

end Sys2Proof.Machine
end

