-- ==== Sys2Proof/Machine/Wire.lean ====
section
/-! DEFINITION. The outgoing wire words as word-level instructions (spec/30_encoding.md R49 to R51). The
effect of a word in the engine is `emit` (spec/41_encoder_commands.md R77): it is offered to the
transport, and `CNT` and `TXF` take the answer. No prologue and no response: those are a command's
(log 6). -/

namespace Sys2Proof.Machine

/-- W.LED_ON (R49): byte 0 is `OPC_LED_ON` with a zero address nibble. -/
def execWLedOn (xr yr : BitVec 3) (s : State) : Result :=
  wordInOpen s
    (emit (opcodeByte Config.opcLedOn, ledPayload (xr.setWidth 8) (yr.setWidth 8)) s)

/-- W.LED_OFF (R49). -/
def execWLedOff (xr yr : BitVec 3) (s : State) : Result :=
  wordInOpen s
    (emit (opcodeByte Config.opcLedOff, ledPayload (xr.setWidth 8) (yr.setWidth 8)) s)

/-- W.ROW (R50). -/
def execWRow (addr : BitVec 3) (bitmap : Byte) (s : State) : Result :=
  wordInOpen s (emit (lineByte0 Config.opcRow (addr.setWidth 8), bitmap) s)

/-- W.COL (R50). -/
def execWCol (addr : BitVec 3) (bitmap : Byte) (s : State) : Result :=
  wordInOpen s (emit (lineByte0 Config.opcCol (addr.setWidth 8), bitmap) s)

/-- W.INTENSITY (R51): the whole byte 0 is the selector. -/
def execWIntensity (level : Byte) (s : State) : Result :=
  wordInOpen s (emit (Config.opbIntensity, level) s)

end Sys2Proof.Machine
end

