-- ==== Sys2Proof/Machine/Dispatch.lean ====
section
/-! DEFINITION. The meaning of every instruction: one arm for each constructor of `Instr`, each one
direct call of its meaning. -/

namespace Sys2Proof.Machine

def exec (i : Instr) (s : State) : Host.Outcome State Fault Refusal :=
  match i with
  | .cmdOpen cfgin => Sys2Proof.Machine.execOpen cfgin s
  | .cmdClose => Sys2Proof.Machine.execClose s
  | .cmdEvt => Sys2Proof.Machine.execEvt s
  | .cmdClear stat => Sys2Proof.Machine.execClear stat s
  | .cmdIntensity level => Sys2Proof.Machine.execIntensity level s
  | .cmdMode modev => Sys2Proof.Machine.execMode modev s
  | .cmdLed x y on => Sys2Proof.Machine.execLed x y on s
  | .cmdRow addr data => Sys2Proof.Machine.execRow addr data s
  | .cmdCol addr data => Sys2Proof.Machine.execCol addr data s
  | .cmdFrame xoff yoff frame => Sys2Proof.Machine.execFrame xoff yoff frame s
  | .unrecognizedAB low => Sys2Proof.Machine.execUnrecognizedAB low s
  | .unrecognizedCF low => Sys2Proof.Machine.execUnrecognizedCF low s
  | .wLedOn xr yr => Sys2Proof.Machine.execWLedOn xr yr s
  | .wLedOff xr yr => Sys2Proof.Machine.execWLedOff xr yr s
  | .wRow addr bitmap => Sys2Proof.Machine.execWRow addr bitmap s
  | .wCol addr bitmap => Sys2Proof.Machine.execWCol addr bitmap s
  | .wIntensity level => Sys2Proof.Machine.execWIntensity level s
  | .eDown low xd yd => Sys2Proof.Machine.execEDown low xd yd s
  | .eUp low xd yd => Sys2Proof.Machine.execEUp low xd yd s
  | .eUnknown23 fam low payload => Sys2Proof.Machine.execEUnknown23 fam low payload s
  | .eUnknown47 fam low payload => Sys2Proof.Machine.execEUnknown47 fam low payload s
  | .eUnknown8F fam low payload => Sys2Proof.Machine.execEUnknown8F fam low payload s

end Sys2Proof.Machine
end

