-- ==== Sys2Proof/Machine/Step.lean ====
section
/-! DEFINITION. One step of the machine: the next item the host side presents is taken and run to
completion (spec/00_scope.md R6). The engine never acts on its own (spec/60_exceptions.md R112): with
nothing presented it waits (log 5). -/

namespace Sys2Proof.Machine

/-- One step. Nothing presented: the machine waits, unchanged. Reset: R122, R123. A unit: it is decoded
(R113, first the code), loaded and run. -/
def step (s : State) : Host.Outcome State Fault Refusal :=
  match s.host with
  | [] => .next s
  | .reset :: rest => .next (engineReset { s with host := rest })
  | .present u :: rest =>
    match decode u with
    | .ok i => exec i (accept u rest s)
    | .error r => .refused (.reservedEncoding r)

/-- The state with the unit of this opcode-table word presented next, ahead of whatever the host
presents; nothing else changes. A number that is no word of the table presents nothing. -/
def State.withFetchWord (s : State) (nbits w : Nat) : State :=
  match tableUnit nbits w with
  | some u => { s with host := .present u :: s.host }
  | none => s

end Sys2Proof.Machine
end

