-- ==== Sys2Proof/Safety.lean ====
section
/-! DEFINITION. What claims about the engine are stated in: the words a run has offered and the bytes the
transport accepted, what a command that emits words leaves (spec/41_encoder_commands.md R77), when an
instruction runs (spec/43_session.md R104), the invariant of the machine, which parts of the state a run
can show (spec/10_state.md R27), and the device reading used by one law (spec/93 G3). -/

namespace Sys2Proof.Machine

/-! ### What has passed to the transport -/

/-- The wire words among the calls, in the order they were offered (R40). -/
def offeredWords : List Call → List (Byte × Byte)
  | [] => []
  | .txWrite b0 b1 _ :: cs => (b0, b1) :: offeredWords cs
  | .txOpen _ :: cs => offeredWords cs
  | .txClose _ :: cs => offeredWords cs
  | .rxRead _ :: cs => offeredWords cs

/-- The bytes the transport accepted, in order: both, byte 0 alone, or none of each word (R30). -/
def acceptedBytes : List Call → List Byte
  | [] => []
  | .txWrite b0 b1 n :: cs => [b0, b1].take n.val ++ acceptedBytes cs
  | .txOpen _ :: cs => acceptedBytes cs
  | .txClose _ :: cs => acceptedBytes cs
  | .rxRead _ :: cs => acceptedBytes cs

/-- The calls made from `s` to `t`, where `t` comes from `s`. -/
def newCalls (s t : State) : List Call := t.tr.calls.drop s.tr.calls.length

/-- The transport's next `k` answers to `TxWrite`: the listed ones, then free values (R30, log 3). -/
def nextWrites : Nat → List (Fin 3) → Nat → List (Fin 3)
  | 0, _, _ => []
  | k + 1, answers, drawn =>
    let d := draw answers (Config.txWriteFree drawn)
    d.1 :: nextWrites k d.2 (drawn + 1)

/-- The answers to the next `k` writes from a state. -/
def writeAnswers (k : Nat) (s : State) : List (Fin 3) := nextWrites k s.tr.writes s.tr.drawn

/-- The total of the answers of a list of `TxWrite` calls: the bytes accepted. -/
def totalAccepted (ns : List (Fin 3)) : Nat := (ns.map Fin.val).sum

/-- The answer the transport gives to the next `RxRead` (R31, log 3). -/
def nextRead (s : State) : ReadAnswer := (draw s.tr.reads (Config.rxReadFree s.tr.drawn)).1

/-- The answer the transport gives to the next `TxOpen` (R32, log 3). -/
def nextOpen (s : State) : Bool := (draw s.tr.opens (Config.txOpenFree s.tr.drawn)).1

/-- The answer the transport gives to the next `TxClose` (R33, log 3). -/
def nextClose (s : State) : Bool := (draw s.tr.closes (Config.txCloseFree s.tr.drawn)).1

/-! ### Frames -/

/-- Every byte of the working buffer reads as before. -/
def BufferKept (s t : State) : Prop := ∀ a, memRead a t = memRead a s

/-- The session, the operand latches and the host's items are as before. -/
structure SessionKept (s t : State) : Prop where
  phase : t.phase = s.phase
  cfg : t.cfg = s.cfg
  lat : t.lat = s.lat
  host : t.host = s.host

/-- The two accumulators are as before. -/
structure AccumulatorsKept (s t : State) : Prop where
  cnt : t.cnt = s.cnt
  txf : t.txf = s.txf

/-- The event latches that R22 gives no meaning when `EV_VALID = 0` are as before: the model's choice
(log 11), which one statement alone speaks of. -/
structure EventLatchesKept (s t : State) : Prop where
  evKind : t.resp.evKind = s.resp.evKind
  evX : t.resp.evX = s.resp.evX
  evY : t.resp.evY = s.resp.evY

/-- From `s` to `t` the words `ws` were offered to the transport in order, each once, and nothing else was
asked of it (R30, R40). -/
structure Offered (ws : List (Byte × Byte)) (s t : State) : Prop where
  calls : t.tr.calls =
    s.tr.calls ++ List.zipWith (fun w n => Call.txWrite w.1 w.2 n) ws (writeAnswers ws.length s)
  writes : t.tr.writes = s.tr.writes.drop ws.length
  drawn : t.tr.drawn = s.tr.drawn + ws.length
  opens : t.tr.opens = s.tr.opens
  closes : t.tr.closes = s.tr.closes
  reads : t.tr.reads = s.tr.reads

/-- What the frame of R77 leaves when a command has emitted the words `ws`: they were all offered, in
order, whatever the answers; `COUNT` is the bytes accepted, `STATUS` is OK exactly when every word was
accepted whole, `EV_VALID` is 0; `CNT` and `TXF` are the command's; session and latches are untouched. -/
structure CommandEmits (ws : List (Byte × Byte)) (s t : State) : Prop where
  offered : Offered ws s t
  count : t.resp.count = BitVec.ofNat 8 (totalAccepted (writeAnswers ws.length s))
  status : t.resp.status =
    if ∀ n ∈ writeAnswers ws.length s, n = 2 then statusOk else statusTransportFailure
  evValid : t.resp.evValid = false
  cnt : t.cnt = t.resp.count
  txf : t.txf = !decide (∀ n ∈ writeAnswers ws.length s, n = 2)
  session : SessionKept s t

/-- A short way to say it of a command that emits `ws` and does not touch the buffer. -/
structure AnswersWithWords (ws : List (Byte × Byte)) (s t : State) : Prop where
  emits : CommandEmits ws s t
  buffer : BufferKept s t

/-- What a wire word run by itself leaves (R77, `emit`; log 6): it was offered, `CNT` and `TXF` took the
answer, nothing else changed (`IDX`: log 11). -/
structure WordEmitted (w : Byte × Byte) (s t : State) : Prop where
  offered : Offered [w] s t
  cnt : t.cnt = s.cnt + BitVec.ofNat 8 (totalAccepted (writeAnswers 1 s))
  txf : t.txf = (s.txf || decide (∃ n ∈ writeAnswers 1 s, n ≠ 2))
  idx : t.idx = s.idx
  resp : t.resp = s.resp
  session : SessionKept s t
  buffer : BufferKept s t

/-- What reading an incoming word leaves beside the response (R91, R94): the read is recorded, and
session, buffer, accumulators and the rest of the transport are as `s` had them. -/
structure WordRead (b0 b1 : Byte) (s t : State) : Prop where
  tr : t.tr = { s.tr with calls := s.tr.calls ++ [.rxRead (.word b0 b1)] }
  accumulators : AccumulatorsKept s t
  session : SessionKept s t
  buffer : BufferKept s t

/-- The response `NO_EVENT` (R94): OK, no bytes, no event. -/
structure NoEventAnswered (s t : State) : Prop where
  status : t.resp.status = statusOk
  count : t.resp.count = 0
  evValid : t.resp.evValid = false

/-- What an unrecognised code leaves (R109): `UnsupportedOperation`, `COUNT = 0`, `EV_VALID = 0`, no
primitive called, session, buffer and accumulators untouched. -/
structure AnswersUnsupported (s t : State) : Prop where
  status : t.resp.status = 2
  count : t.resp.count = 0
  evValid : t.resp.evValid = false
  tr : t.tr = s.tr
  session : SessionKept s t
  accumulators : AccumulatorsKept s t
  buffer : BufferKept s t

/-! ### When an instruction runs -/

/-- The phase an instruction runs in (R99, R101, R102; the table of R104; for a wire word by itself log 6),
and for OPEN its legal operands (R98). -/
def Runs : Instr → Phase → Prop
  | .cmdOpen c, p => p = .fresh ∧ (cfgOfImage c).Legal
  | .unrecognizedAB _, _ => True
  | .unrecognizedCF _, _ => True
  | .cmdClose, p => p = .opened
  | .cmdEvt, p => p = .opened
  | .cmdClear _, p => p = .opened
  | .cmdIntensity _, p => p = .opened
  | .cmdMode _, p => p = .opened
  | .cmdLed _ _ _, p => p = .opened
  | .cmdRow _ _, p => p = .opened
  | .cmdCol _ _, p => p = .opened
  | .cmdFrame _ _ _, p => p = .opened
  | .wLedOn _ _, p => p = .opened
  | .wLedOff _ _, p => p = .opened
  | .wRow _ _, p => p = .opened
  | .wCol _ _, p => p = .opened
  | .wIntensity _, p => p = .opened
  | .eDown _ _ _, p => p = .opened
  | .eUp _ _ _, p => p = .opened
  | .eUnknown23 _ _ _, p => p = .opened
  | .eUnknown47 _ _ _, p => p = .opened
  | .eUnknown8F _ _ _, p => p = .opened

/-- The seven commands of the encoder (spec/41_encoder_commands.md). -/
def isEncoderCommand : Instr → Bool
  | .cmdClear _ => true
  | .cmdIntensity _ => true
  | .cmdMode _ => true
  | .cmdLed _ _ _ => true
  | .cmdRow _ _ => true
  | .cmdCol _ _ => true
  | .cmdFrame _ _ _ => true
  | .cmdOpen _ => false
  | .cmdClose => false
  | .cmdEvt => false
  | .unrecognizedAB _ => false
  | .unrecognizedCF _ => false
  | .wLedOn _ _ => false
  | .wLedOff _ _ => false
  | .wRow _ _ => false
  | .wCol _ _ => false
  | .wIntensity _ => false
  | .eDown _ _ _ => false
  | .eUp _ _ _ => false
  | .eUnknown23 _ _ _ => false
  | .eUnknown47 _ _ _ => false
  | .eUnknown8F _ _ _ => false

/-- The ten wire words as instructions of their own (log 6). -/
def isWireWord : Instr → Bool
  | .wLedOn _ _ => true
  | .wLedOff _ _ => true
  | .wRow _ _ => true
  | .wCol _ _ => true
  | .wIntensity _ => true
  | .eDown _ _ _ => true
  | .eUp _ _ _ => true
  | .eUnknown23 _ _ _ => true
  | .eUnknown47 _ _ _ => true
  | .eUnknown8F _ _ _ => true
  | .cmdOpen _ => false
  | .cmdClose => false
  | .cmdEvt => false
  | .cmdClear _ => false
  | .cmdIntensity _ => false
  | .cmdMode _ => false
  | .cmdLed _ _ _ => false
  | .cmdRow _ _ => false
  | .cmdCol _ _ => false
  | .cmdFrame _ _ _ => false
  | .unrecognizedAB _ => false
  | .unrecognizedCF _ => false

/-- The instructions run one after another, stopping at the first that does not answer a next state. -/
def runAll : List Instr → State → Result
  | [], s => .next s
  | i :: is, s =>
    match exec i s with
    | .next t => runAll is t
    | .fault f => .fault f
    | .refused r => .refused r

/-! ### The invariant -/

/-- What holds in every state a run reaches. -/
structure EngineInv (s : State) : Prop where
  /-- After OPEN the extents are legal (R16, R98), and stay so (R23). -/
  cfgLegal : s.phase ≠ .fresh → s.cfg.Legal
  /-- The buffer is in its canonical form and lists only indices 0 to 7 (R28). -/
  buffer : Memory.wf s.wb = true
  /-- `IDX` is never above 8 (R18). -/
  idxBound : s.idx.toNat ≤ 8
  /-- The reserved status code is never produced (R107, U13). -/
  statusCode : s.resp.status ≠ 3
  /-- `COUNT` is at most 8 words of 2 bytes (R21). -/
  countBound : s.resp.count.toNat ≤ 16
  /-- Every word offered so far has one of the formats of R49 to R51 (R48, R58, R90). -/
  wordsLegal : ∀ b0 b1 n, Call.txWrite b0 b1 n ∈ s.tr.calls → outgoingAccepts b0 b1 = true

/-! ### What a run can show (R27, R22) -/

/-- Two states that differ at most in elements that hold no value after reset and that no rule reads
before writing (R27): `CFG` before OPEN, `WB`, `IDX`, `CNT`, `TXF`, the latches, the response. -/
structure SameSession (a b : State) : Prop where
  phase : a.phase = b.phase
  cfg : a.phase ≠ .fresh → a.cfg = b.cfg
  host : a.host = b.host
  tr : a.tr = b.tr

/-- Two responses with the same meaning: `EV_KIND`, `EV_X`, `EV_Y` are meaningful only when
`EV_VALID = 1` (R22). -/
structure SameResponse (p q : Response) : Prop where
  status : p.status = q.status
  count : p.count = q.count
  evValid : p.evValid = q.evValid
  evKind : p.evValid = true → p.evKind = q.evKind
  evX : p.evValid = true → p.evX = q.evX
  evY : p.evValid = true → p.evY = q.evY

/-- Two outcomes of the same kind, with the same reason, or with next states that `R` relates. -/
def OutcomesAgree (R : State → State → Prop) : Result → Result → Prop
  | .next a, .next b => R a b
  | .fault f, .fault g => f = g
  | .refused p, .refused q => p = q
  | _, _ => False

/-! ### The device reading (G3) -/

/-- The physical cells `(x, y)` a wire word sets, and to what. PRESUMED (spec/93 G3, from general
knowledge; log 14): the device is outside the engine, and only the consistency law of R75 is stated
in these terms. -/
def deviceCells : Instr → List ((Nat × Nat) × Bool)
  | .wRow r d => (List.range 8).map fun j => ((j, r.toNat), d.getLsbD j)
  | .wCol c d => (List.range 8).map fun j => ((c.toNat, j), d.getLsbD j)
  | .wLedOn x y => [((x.toNat, y.toNat), true)]
  | .wLedOff x y => [((x.toNat, y.toNat), false)]
  | .wIntensity _ => []
  | .cmdOpen _ => []
  | .cmdClose => []
  | .cmdEvt => []
  | .cmdClear _ => []
  | .cmdIntensity _ => []
  | .cmdMode _ => []
  | .cmdLed _ _ _ => []
  | .cmdRow _ _ => []
  | .cmdCol _ _ => []
  | .cmdFrame _ _ _ => []
  | .unrecognizedAB _ => []
  | .unrecognizedCF _ => []
  | .eDown _ _ _ => []
  | .eUp _ _ _ => []
  | .eUnknown23 _ _ _ => []
  | .eUnknown47 _ _ _ => []
  | .eUnknown8F _ _ _ => []

/-- The cells set by the words offered in a list of calls, in order. -/
def cellsSet : List Call → List ((Nat × Nat) × Bool)
  | [] => []
  | .txWrite b0 b1 _ :: cs =>
    (match decodeOutgoing b0 b1 with
      | .ok i => deviceCells i
      | .error _ => []) ++ cellsSet cs
  | .txOpen _ :: cs => cellsSet cs
  | .txClose _ :: cs => cellsSet cs
  | .rxRead _ :: cs => cellsSet cs

end Sys2Proof.Machine
end

