-- ==== Sys2Proof/Certificates/Slice0/Obligations.lean ====
section
/-! DEFINITION. The statements for the provers. Each docstring names the rule of spec/ it formalises; a
statement that rests on a decision the spec marks as its own, or on a choice of the model, says so. -/

open Sys2Proof Sys2Proof.Machine

/-! ### Reset and the step -/

/-- R122, R123 (decision D19): reset, in any phase, leads to `New`, leaves no byte of the buffer with a
value, calls no primitive, and is a step between commands. That a read of such a byte faults, and by which
name, is the model's choice (log 2); that a reset takes its item and keeps the rest of the host's list and
the transport's fields is too (log 12). The values of the other elements are the model's choice (log 1), and
nothing is said of them. -/
def Obligations.ResetLeavesPhaseNewAndCallsNothing : Prop :=
  State.reset.phase = .fresh ∧
  (∀ a, a < 8 → memRead a State.reset = .error .bufferByteUnwritten) ∧
  ∀ (s : State) (rest : List HostItem), s.host = .reset :: rest →
    ∃ t, step s = .next t ∧ t.phase = .fresh ∧ t.tr = s.tr ∧ t.host = rest ∧
      ∀ a, a < 8 → memRead a t = .error .bufferByteUnwritten

/-- A step runs the decoded instruction (R6; R17, R45 for the latches): the item is taken from the host side,
a command's operands are loaded into the latches whole, and the rest of the state is as it was. The list the
item is taken from is the model's form of the host (log 5); a wire word presented by itself, which the last
two clauses speak of, is the model's choice (log 6). -/
def Obligations.StepRunsTheDecodedInstruction : Prop :=
  (∀ (s : State) (l : Latches) (rest : List HostItem) (i : Instr),
    s.host = .present (.command l) :: rest → decode (.command l) = .ok i →
      step s = exec i { s with host := rest, lat := l }) ∧
  (∀ (s : State) (b0 b1 : Byte) (rest : List HostItem) (i : Instr),
    s.host = .present (.outgoing b0 b1) :: rest → decode (.outgoing b0 b1) = .ok i →
      step s = exec i { s with host := rest }) ∧
  (∀ (s : State) (b0 b1 : Byte) (rest : List HostItem) (i : Instr),
    s.host = .present (.incoming b0 b1) :: rest → decode (.incoming b0 b1) = .ok i →
      step s = exec i { s with host := rest })

/-- The engine never acts on its own (R112): with nothing presented a step changes nothing, which is the
model's reading (log 5); a presented word that the decoder rejects is refused by name (log 6). -/
def Obligations.StepWaitsForTheHost : Prop :=
  (∀ s : State, s.host = [] → step s = .next s) ∧
  (∀ (s : State) (u : EncUnit) (rest : List HostItem) (r : Reject),
    s.host = .present u :: rest → decode u = .error r → step s = .refused (.reservedEncoding r))

/-! ### Encodings -/

/-- Words written out from the tables of R46, R49 to R52 decode to the instruction they stand for. -/
def Obligations.WrittenOutWordsDecode : Prop :=
  decode (.command { Latches.zero with op := 0x6, x := 3, y := 4, on := true }) =
    .ok (.cmdLed 3 4 true) ∧
  decode (.command { Latches.zero with op := 0x0, cfgin := 0x885 }) = .ok (.cmdOpen 0x885) ∧
  decode (.command { Latches.zero with op := 0xB }) = .ok (.unrecognizedAB 1) ∧
  decode (.outgoing 0x20 0x34) = .ok (.wLedOn 3 4) ∧
  decode (.outgoing 0x0A 0x0F) = .ok (.wIntensity 0x0F) ∧
  decode (.outgoing 0x85 0x0F) = .ok (.wCol 5 0x0F) ∧
  decode (.outgoing 0x08 0x00) = .error (.reservedByte0 0x08) ∧
  decode (.incoming 0x1A 0x65) = .ok (.eUp 0xA 6 5) ∧
  decode (.incoming 0x20 0x34) = .ok (.eUnknown23 0 0 0x34)

/-- Decode and encode agree on every instruction of all three kinds, with every operand at every value
the encoding admits (R46, R49 to R52). -/
def Obligations.DecodeAfterEncodeIsTheInstruction : Prop :=
  ∀ i : Instr, decode (encode i) = .ok i

/-- Every wire word the decoder takes, outgoing or incoming, is the encoding of what it decodes to: no
bit of a word is dropped (R49 to R52). -/
def Obligations.EncodeAfterDecodeIsTheWord : Prop :=
  ∀ (b0 b1 : Byte) (i : Instr),
    (decode (.outgoing b0 b1) = .ok i → encode i = .outgoing b0 b1) ∧
    (decode (.incoming b0 b1) = .ok i → encode i = .incoming b0 b1)

/-- The outgoing words are the five rows of the opcode table, by match and mask over the word
byte0 * 256 + byte1 (R7, R49 to R51), no word is of two rows (R61), and byte 0 has one of 19 values
(R56). The rules that sum this up are the spec's own derivations. -/
def Obligations.OutgoingWordsAreTheTableRows : Prop :=
  ∀ b0 b1 : Byte,
    ((∃ xr yr, decodeOutgoing b0 b1 = .ok (.wLedOn xr yr)) ↔ (b0 ++ b1) &&& 0xFF88 = 0x2000#16) ∧
    ((∃ xr yr, decodeOutgoing b0 b1 = .ok (.wLedOff xr yr)) ↔ (b0 ++ b1) &&& 0xFF88 = 0x1000#16) ∧
    ((∃ a d, decodeOutgoing b0 b1 = .ok (.wRow a d)) ↔ (b0 ++ b1) &&& 0xF800 = 0x0000#16) ∧
    ((∃ a d, decodeOutgoing b0 b1 = .ok (.wCol a d)) ↔ (b0 ++ b1) &&& 0xF800 = 0x8000#16) ∧
    ((∃ v, decodeOutgoing b0 b1 = .ok (.wIntensity v)) ↔ (b0 ++ b1) &&& 0xFF00 = 0x0A00#16) ∧
    (outgoingAccepts b0 b1 = true →
      b0.toNat ∈ [0x00, 0x01, 0x02, 0x03, 0x04, 0x05, 0x06, 0x07, 0x0A, 0x10, 0x20,
        0x80, 0x81, 0x82, 0x83, 0x84, 0x85, 0x86, 0x87])

/-- The incoming words are the five rows of the opcode table, by match and mask, and every word is of one
of them (R52, R57, R60). -/
def Obligations.IncomingWordsAreTheTableRows : Prop :=
  ∀ b0 b1 : Byte,
    ((∃ low xd yd, decodeIncoming b0 b1 = .eDown low xd yd) ↔ (b0 ++ b1) &&& 0xF000 = 0x0000#16) ∧
    ((∃ low xd yd, decodeIncoming b0 b1 = .eUp low xd yd) ↔ (b0 ++ b1) &&& 0xF000 = 0x1000#16) ∧
    ((∃ f low p, decodeIncoming b0 b1 = .eUnknown23 f low p) ↔
      (b0 ++ b1) &&& 0xE000 = 0x2000#16) ∧
    ((∃ f low p, decodeIncoming b0 b1 = .eUnknown47 f low p) ↔
      (b0 ++ b1) &&& 0xC000 = 0x4000#16) ∧
    ((∃ f low p, decodeIncoming b0 b1 = .eUnknown8F f low p) ↔
      (b0 ++ b1) &&& 0x8000 = 0x8000#16)

/-- The packed image of the configuration (R24, decision D5) carries every field and no other bit. -/
def Obligations.ConfigurationImageRoundTrip : Prop :=
  (∀ c : BitVec 12, imageOfCfg (cfgOfImage c) = c) ∧ (∀ k : Cfg, cfgOfImage (imageOfCfg k) = k)

/-! ### The transform unit -/

/-- R64, whole: bit `i` of the result is bit `7 - i` of the argument; an involution; the three values,
the sixteen palindromes and the example the rule gives. -/
def Obligations.ByteReversalReversesEveryBit : Prop :=
  (∀ (b : Byte) (i : Nat), i < 8 → (rev8 b).getLsbD i = b.getLsbD (7 - i)) ∧
  (∀ b : Byte, rev8 (rev8 b) = b) ∧
  rev8 0x00 = 0x00 ∧ rev8 0xFF = 0xFF ∧ rev8 0x01 = 0x80 ∧ rev8 0x12 = 0x48 ∧
  (∀ b : Byte, rev8 b = b ↔ b.toNat ∈ [0x00, 0x18, 0x24, 0x3C, 0x42, 0x5A, 0x66, 0x7E,
    0x81, 0x99, 0xA5, 0xBD, 0xC3, 0xDB, 0xE7, 0xFF])

/-- R65, R66 (decision D9): the mirrors are involutions on all 8-bit values, keep in-range coordinates in
range, and are the identity when their flag is 0. -/
def Obligations.MirrorsAreInvolutionsInRange : Prop :=
  ∀ (c : Cfg) (v : Byte), c.Legal →
    mx c (mx c v) = v ∧ my c (my c v) = v ∧
    (v.toNat < c.cols.toNat → (mx c v).toNat < c.cols.toNat ∧
      (c.rowRev = true → (mx c v).toNat = c.cols.toNat - 1 - v.toNat)) ∧
    (v.toNat < c.rows.toNat → (my c v).toNat < c.rows.toNat ∧
      (c.colRev = true → (my c v).toNat = c.rows.toNat - 1 - v.toNat)) ∧
    (c.rowRev = false → mx c v = v) ∧ (c.colRev = false → my c v = v)

/-- R69 (the spec's derivation from decision D9): `unrotate` and `rotate` undo each other on all 8-bit
pairs, on the grid and off it, and an in-range pair is sent into the physical grid. -/
def Obligations.RotateAndUnrotateAreInverse : Prop :=
  (∀ (c : Cfg) (x y : Byte),
    unrotate c (rotate c x y).1 (rotate c x y).2 = (x, y) ∧
    rotate c (unrotate c x y).1 (unrotate c x y).2 = (x, y)) ∧
  (∀ (c : Cfg) (x y : Byte), c.Legal → x.toNat < c.cols.toNat → y.toNat < c.rows.toNat →
    (c.swap = false →
      (rotate c x y).1.toNat < c.cols.toNat ∧ (rotate c x y).2.toNat < c.rows.toNat) ∧
    (c.swap = true →
      (rotate c x y).1.toNat < c.rows.toNat ∧ (rotate c x y).2.toNat < c.cols.toNat))

/-- R74 (the spec's derivation): masking to 3 bits before the rotation, after it, or both gives the same
wire coordinates and line indices, under every configuration. -/
def Obligations.MaskingOrderCannotBeObserved : Prop :=
  ∀ (c : Cfg) (x y a : Byte) (axis : Axis),
    mask3 (rotate c x y).1 = mask3 (rotate c (mask3 x) (mask3 y)).1 ∧
    mask3 (rotate c x y).2 = mask3 (rotate c (mask3 x) (mask3 y)).2 ∧
    mask3 (axisAddr c axis a) = mask3 (axisAddr c axis (mask3 a))

/-- R70 (decision D10), in its closed form: a row index is mirrored by `COL_REV`, a column index by
`ROW_REV`, whatever `SWAP` is. -/
def Obligations.LineIndexIsMirroredByTheOtherFlag : Prop :=
  ∀ (c : Cfg) (a : Byte),
    axisAddr c .row a = (if c.colRev then c.rows.setWidth 8 - 1 - a else a) ∧
    axisAddr c .col a = (if c.rowRev then c.cols.setWidth 8 - 1 - a else a)

/-- R71, whole: a row payload is reversed when `ROW_REV` is set, a column payload when `COL_REV` is set,
by the axis of the command; `SWAP` does not enter; the example. -/
def Obligations.PayloadReversedByTheCommandAxisFlag : Prop :=
  (∀ (c : Cfg) (d : Byte),
    axisPayload c .row d = (if c.rowRev then rev8 d else d) ∧
    axisPayload c .col d = (if c.colRev then rev8 d else d)) ∧
  (∀ (c : Cfg) (b : Bool) (axis : Axis) (d : Byte),
    axisPayload { c with swap := b } axis d = axisPayload c axis d) ∧
  (∀ c : Cfg, c.rowRev = true → c.colRev = false →
    axisPayload c .row 0x01 = 0x80 ∧ axisPayload c .col 0x01 = 0x01)

/-- R72, whole: the result table, and the toggle that inverts bit 7 of byte 0. -/
def Obligations.SwapTogglesTheLineOpcode : Prop :=
  (∀ c : Cfg, c.swap = false → axisOpcode c .row = 0x0 ∧ axisOpcode c .col = 0x8) ∧
  (∀ c : Cfg, c.swap = true → axisOpcode c .row = 0x8 ∧ axisOpcode c .col = 0x0) ∧
  (∀ (c : Cfg) (axis : Axis) (a d : Byte),
    (lineWord { c with swap := true } axis a d).1 =
      (lineWord { c with swap := false } axis a d).1 ^^^ 0x80)

/-- R53, R54: how a coordinate pair and a line index are packed, for every physical value. -/
def Obligations.OutgoingBytesArePackedWithThreeBitFields : Prop :=
  (∀ xr yr : Byte, ledPayload xr yr = ((xr &&& 0x07) <<< 4 ||| (yr &&& 0x07)) ∧
    (ledPayload xr yr).toNat = xr.toNat % 8 * 16 + yr.toNat % 8) ∧
  (∀ (opc : Nibble) (a : Byte), lineByte0 opc a = (opc.setWidth 8 <<< 4 ||| (a &&& 0x07)) ∧
    (lineByte0 opc a).toNat = opc.toNat * 16 + a.toNat % 8)

/-- R76 (decision D24 for the names): the eight orientations on an 8 by 8 grid. -/
def Obligations.EightOrientationsOfTheSquareGrid : Prop :=
  ∀ (ft : Bool) (x y : Byte),
    rotate ⟨false, false, false, ft, 8, 8⟩ x y = (x, y) ∧
    rotate ⟨true, false, true, ft, 8, 8⟩ x y = (y, 7 - x) ∧
    rotate ⟨true, true, false, ft, 8, 8⟩ x y = (7 - x, 7 - y) ∧
    rotate ⟨false, true, true, ft, 8, 8⟩ x y = (7 - y, x) ∧
    rotate ⟨true, false, false, ft, 8, 8⟩ x y = (7 - x, y) ∧
    rotate ⟨false, true, false, ft, 8, 8⟩ x y = (x, 7 - y) ∧
    rotate ⟨false, false, true, ft, 8, 8⟩ x y = (y, x) ∧
    rotate ⟨true, true, true, ft, 8, 8⟩ x y = (7 - y, 7 - x)

/-! ### The command encoder -/

/-- R82: LED completes in phase `Open`, for every coordinate and under every configuration: one word,
`0x20` or `0x10` and the rotated pair masked to 3 bits, with the frame of R77 (decisions D14, D15); and
the example. -/
def Obligations.LedEmitsTheRotatedPair : Prop :=
  (∀ (x y : Byte) (on : Bool) (s : State), s.phase = .opened →
    ∃ t, exec (.cmdLed x y on) s = .next t ∧
      AnswersWithWords
        [(if on then 0x20 else 0x10,
          ((rotate s.cfg x y).1 &&& 0x07) <<< 4 ||| ((rotate s.cfg x y).2 &&& 0x07))] s t) ∧
  (∀ s : State, s.phase = .opened → s.cfg = ⟨false, false, false, false, 8, 8⟩ →
    ∃ t, exec (.cmdLed 3 4 true) s = .next t ∧ AnswersWithWords [(0x20, 0x34)] s t)

/-- R85: ROW completes in phase `Open`, for every index and byte: one word as the rule spells it out,
with the frame of R77 (decisions D14, D15); and the two examples. -/
def Obligations.RowEmitsItsLineWord : Prop :=
  (∀ (a d : Byte) (s : State), s.phase = .opened →
    ∃ t, exec (.cmdRow a d) s = .next t ∧
      AnswersWithWords
        [((if s.cfg.swap then 0x8 else 0x0 : Byte) <<< 4 ||| (my s.cfg a &&& 7),
          if s.cfg.rowRev then rev8 d else d)] s t) ∧
  lineWord ⟨false, false, false, false, 8, 8⟩ .row 2 0xA5 = (0x02, 0xA5) ∧
  lineWord ⟨true, false, true, false, 8, 8⟩ .row 2 0x01 = (0x82, 0x80)

/-- R86: COL completes in phase `Open`, for every index and byte: one word as the rule spells it out,
with the frame of R77 (decisions D14, D15); and the two examples. -/
def Obligations.ColEmitsItsLineWord : Prop :=
  (∀ (a d : Byte) (s : State), s.phase = .opened →
    ∃ t, exec (.cmdCol a d) s = .next t ∧
      AnswersWithWords
        [((if s.cfg.swap then 0x0 else 0x8 : Byte) <<< 4 ||| (mx s.cfg a &&& 7),
          if s.cfg.colRev then rev8 d else d)] s t) ∧
  lineWord ⟨false, false, false, false, 8, 8⟩ .col 5 0x0F = (0x85, 0x0F) ∧
  lineWord ⟨true, false, true, false, 8, 8⟩ .col 5 0x0F = (0x02, 0x0F)

/-- R80 (decision D21: all 8 bits of the level): INTENSITY completes in phase `Open` with the one word
`0A LEVEL`, whatever the configuration. -/
def Obligations.IntensityEmitsTheLevelUnchecked : Prop :=
  ∀ (level : Byte) (s : State), s.phase = .opened →
    ∃ t, exec (.cmdIntensity level) s = .next t ∧ AnswersWithWords [(0x0A, level)] s t

/-- R81: MODE completes in phase `Open` with success, offers nothing, calls no primitive, and every value
of its operand gives the same behaviour. -/
def Obligations.ModeIsANoOpReturningSuccess : Prop :=
  (∀ (m : Byte) (s : State), s.phase = .opened →
    ∃ t, exec (.cmdMode m) s = .next t ∧ t.tr = s.tr ∧ t.resp.status = 0 ∧ t.resp.count = 0 ∧
      AnswersWithWords [] s t) ∧
  (∀ (m n : Byte) (s : State), exec (.cmdMode m) s = exec (.cmdMode n) s)

/-- R78 (decision D12: raw words, status ignored): CLEAR completes in phase `Open` with `ROWS` raw
row-write words of payload 0, indices ascending from 0, whatever the flags and its operand. -/
def Obligations.ClearEmitsOneRawRowWordPerRow : Prop :=
  ∀ (st : Bool) (s : State), s.phase = .opened →
    ∃ t, exec (.cmdClear st) s = .next t ∧
      CommandEmits ((List.range s.cfg.rows.toNat).map fun i => (BitVec.ofNat 8 i, 0x00)) s t ∧
      BufferKept s t ∧ exec (.cmdClear (!st)) s = .next t

/-- R79 (the spec's derivation): CLEAR's `COUNT` is the sum of the transport's answers, it is `2 * ROWS`
exactly when every call returned 2, and `STATUS` is OK if and only if it is. -/
def Obligations.ClearCountTellsSuccess : Prop :=
  ∀ (st : Bool) (s t : State), exec (.cmdClear st) s = .next t →
    t.resp.count.toNat = totalAccepted (writeAnswers s.cfg.rows.toNat s) ∧
    (t.resp.count.toNat = 2 * s.cfg.rows.toNat ↔
      ∀ n ∈ writeAnswers s.cfg.rows.toNat s, n = 2) ∧
    (t.resp.status = statusOk ↔ t.resp.count.toNat = 2 * s.cfg.rows.toNat)

/-- R89: FRAME completes in phase `Open` with 8 line words, whatever `ROWS` is, one for each byte of the
buffer in index order, each through the whole row-write path; `COUNT` is 16 on success. With
`ROW_REV = 0` and `SWAP = 0` the words are row writes and the payloads the buffer's bytes. -/
def Obligations.FrameDecomposesTheBufferIntoEightLines : Prop :=
  ∀ (xoff yoff : Byte) (f : Bytes8) (s : State), s.phase = .opened →
    ∃ (t : State) (buf : List Byte), exec (.cmdFrame xoff yoff f) s = .next t ∧ buf.length = 8 ∧
      (∀ i, i < 8 → memRead i t = .ok (buf.getD i 0)) ∧
      CommandEmits
        ((List.range 8).map fun i =>
          ((if s.cfg.swap then 0x80 else 0x00 : Byte) ||| (my s.cfg (BitVec.ofNat 8 i) &&& 7),
            if s.cfg.rowRev then rev8 (buf.getD i 0) else buf.getD i 0)) s t ∧
      ((∀ n ∈ writeAnswers 8 s, n = 2) → t.resp.count = 16 ∧ t.resp.status = 0)

/-- R88 (decision D18: `FT` is a parameter): after FRAME the buffer holds, at every index, the byte of the
frame, or of the frame transform's output when `FT_EN = 1`. The offsets reach the transform only: without
it they change nothing, and with it nor do they, nor does the frame, where the transform's output is the
same. That the transform is always supplied is the model's choice (log 4). -/
def Obligations.FrameFillsTheBufferExactly : Prop :=
  ∀ (xoff yoff : Byte) (f : Bytes8) (s t : State), exec (.cmdFrame xoff yoff f) s = .next t →
    (∀ i, i < 8 → memRead i t =
      .ok ((frameBytes (if s.cfg.ftEn then Config.frameTransform xoff yoff f else f)).getD i 0)) ∧
    (s.cfg.ftEn = false → ∀ xo yo, exec (.cmdFrame xo yo f) s = .next t) ∧
    (s.cfg.ftEn = true → ∀ xo yo g,
      Config.frameTransform xo yo g = Config.frameTransform xoff yoff f →
        exec (.cmdFrame xo yo g) s = .next t)

/-- R63: FRAME expands into the eight ROW commands of the buffer's bytes. Run one after another from the
same state they leave the transport exactly as FRAME does. -/
def Obligations.FrameIsEightRowCommands : Prop :=
  ∀ (xoff yoff : Byte) (f : Bytes8) (s t : State) (buf : List Byte),
    exec (.cmdFrame xoff yoff f) s = .next t → (∀ i, i < 8 → memRead i t = .ok (buf.getD i 0)) →
    ∃ u, runAll ((List.range 8).map fun i => .cmdRow (BitVec.ofNat 8 i) (buf.getD i 0)) s = .next u ∧
      u.tr = t.tr

/-- The words of the one-word commands are rows of the opcode table, and the command is that word between
the prologue and the epilogue of R77 (the table's "emitted_by"; the words as instructions, log 6). -/
def Obligations.CommandsRunTheirTableWords : Prop :=
  (∀ (x y : Byte) (on : Bool) (s : State), s.phase = .opened →
    ∃ xr yr u, exec (if on then .wLedOn xr yr else .wLedOff xr yr) (prologue s) = .next u ∧
      exec (.cmdLed x y on) s = .next (epilogue u)) ∧
  (∀ (a d : Byte) (s : State), s.phase = .opened →
    ∃ line p u, exec (if s.cfg.swap then .wCol line p else .wRow line p) (prologue s) = .next u ∧
      exec (.cmdRow a d) s = .next (epilogue u)) ∧
  (∀ (a d : Byte) (s : State), s.phase = .opened →
    ∃ line p u, exec (if s.cfg.swap then .wRow line p else .wCol line p) (prologue s) = .next u ∧
      exec (.cmdCol a d) s = .next (epilogue u)) ∧
  (∀ (v : Byte) (s : State), s.phase = .opened →
    ∃ u, exec (.wIntensity v) (prologue s) = .next u ∧
      exec (.cmdIntensity v) s = .next (epilogue u))

/-- R83, R87, R133 (the spec's derivations): coordinates and line indices alias modulo 8, under every
configuration and in every phase. -/
def Obligations.CoordinatesAliasModuloEight : Prop :=
  ∀ (x y a d : Byte) (on : Bool) (s : State),
    exec (.cmdLed x y on) s = exec (.cmdLed (x &&& 7) (y &&& 7) on) s ∧
    exec (.cmdRow a d) s = exec (.cmdRow (a &&& 7) d) s ∧
    exec (.cmdCol a d) s = exec (.cmdCol (a &&& 7) d) s

/-- R90 (the spec's derivation): which words an encoder command offers, and how many, depends on the
command and the configuration only, never on the transport's answers or on anything else. -/
def Obligations.OfferedWordsIgnoreTheTransport : Prop :=
  ∀ (i : Instr) (a b t u : State), isEncoderCommand i = true → a.cfg = b.cfg →
    exec i a = .next t → exec i b = .next u →
    offeredWords (newCalls a t) = offeredWords (newCalls b u)

/-- R21, R30 (decision D15): the `COUNT` of an encoder command is the number of bytes the transport
accepted during it. -/
def Obligations.CountIsTheBytesAccepted : Prop :=
  ∀ (i : Instr) (s t : State), isEncoderCommand i = true → exec i s = .next t →
    t.resp.count.toNat = (acceptedBytes (newCalls s t)).length

/-- R75 (the spec's derivation, under the device reading G3, which is PRESUMED, log 14): on an 8 by 8 grid
and under every orientation, a ROW sets the same physical cells to the same values as the eight LED
commands of its cells; likewise a COL. -/
def Obligations.LineWritesAgreeWithSingleLeds : Prop :=
  ∀ (s : State) (k d : Byte), s.phase = .opened → s.cfg.rows = 8 → s.cfg.cols = 8 → k.toNat < 8 →
    (∃ t u, exec (.cmdRow k d) s = .next t ∧
      runAll ((List.range 8).map fun x => .cmdLed (BitVec.ofNat 8 x) k (d.getLsbD x)) s = .next u ∧
      ∀ cell, cell ∈ cellsSet (newCalls s t) ↔ cell ∈ cellsSet (newCalls s u)) ∧
    (∃ t u, exec (.cmdCol k d) s = .next t ∧
      runAll ((List.range 8).map fun y => .cmdLed k (BitVec.ofNat 8 y) (d.getLsbD y)) s = .next u ∧
      ∀ cell, cell ∈ cellsSet (newCalls s t) ↔ cell ∈ cellsSet (newCalls s u))

/-! ### Events -/

/-- R92 to R94: EVT completes in phase `Open` on a whole word of a button family: the kind by the family,
the coordinates the two nibbles of byte 1 through `unrotate`, unmasked; one read, nothing offered;
session, accumulators and buffer as before. -/
def Obligations.EvtDecodesAButtonWord : Prop :=
  ∀ (s : State) (b0 b1 : Byte), s.phase = .opened → nextRead s = .word b0 b1 →
    ∀ kind, (b0 >>> 4 = 0x0 ∧ kind = .buttonDown) ∨ (b0 >>> 4 = 0x1 ∧ kind = .buttonUp) →
    ∃ t, exec .cmdEvt s = .next t ∧
      t.resp = { status := 0, count := 0, evValid := true, evKind := kind,
                 evX := (unrotate s.cfg (b1 >>> 4) (b1 &&& 0xF)).1,
                 evY := (unrotate s.cfg (b1 >>> 4) (b1 &&& 0xF)).2 } ∧
      t.tr = { s.tr with reads := s.tr.reads.drop 1, drawn := s.tr.drawn + 1,
                         calls := s.tr.calls ++ [.rxRead (.word b0 b1)] } ∧
      SessionKept s t ∧ AccumulatorsKept s t ∧ BufferKept s t

/-- R95: a word of any family `0x2` to `0xF` gives no event; its two bytes are consumed, and the next EVT
finds what follows. The word is the transport's next answer, listed or free (log 3). -/
def Obligations.UnknownFamilyIsConsumedWithoutEvent : Prop :=
  ∀ (s : State) (b0 b1 : Byte), s.phase = .opened → nextRead s = .word b0 b1 →
    2 ≤ (b0 >>> 4).toNat →
    ∃ t, exec .cmdEvt s = .next t ∧ NoEventAnswered s t ∧
      t.tr = { s.tr with reads := s.tr.reads.drop 1, drawn := s.tr.drawn + 1,
                         calls := s.tr.calls ++ [.rxRead (.word b0 b1)] } ∧
      SessionKept s t ∧ AccumulatorsKept s t ∧ BufferKept s t ∧
      nextRead t = (draw (s.tr.reads.drop 1) (Config.rxReadFree (s.tr.drawn + 1))).1

/-- R96 (the spec's derivation): no byte, or one, is no event and no failure; the byte obtained is lost,
so the next EVT starts with the next answer. -/
def Obligations.ShortReadIsNoEvent : Prop :=
  ∀ (s : State) (a : ReadAnswer), s.phase = .opened → nextRead s = a →
    a = .nothing ∨ (∃ b0, a = .oneByte b0) →
    ∃ t, exec .cmdEvt s = .next t ∧ NoEventAnswered s t ∧
      t.tr = { s.tr with reads := s.tr.reads.drop 1, drawn := s.tr.drawn + 1,
                         calls := s.tr.calls ++ [.rxRead a] } ∧
      SessionKept s t ∧ AccumulatorsKept s t ∧ BufferKept s t

/-- The opcode table's incoming rows are what EVT runs ("consumed_by"): EVT, answered with a whole word, listed
or free (log 3), is the instruction that word decodes to, run where the answer has been taken (log 6). -/
def Obligations.EvtRunsTheIncomingWord : Prop :=
  ∀ (s : State) (b0 b1 : Byte), s.phase = .opened → nextRead s = .word b0 b1 →
    exec .cmdEvt s = exec (decodeIncoming b0 b1)
      { s with tr := { s.tr with reads := s.tr.reads.drop 1, drawn := s.tr.drawn + 1 } }

/-- R97 (the spec's derivation): for every orientation and every in-grid cell, the second byte of an LED
word, read back behind any byte of a button family in an open session of that configuration, decodes to the
cell. -/
def Obligations.LoopbackRecoversTheCell : Prop :=
  ∀ (x y : Byte) (on : Bool) (s : State), s.phase = .opened → s.cfg.Legal →
    x.toNat < s.cfg.cols.toNat → y.toNat < s.cfg.rows.toNat →
    ∃ t c0 c1, exec (.cmdLed x y on) s = .next t ∧ offeredWords (newCalls s t) = [(c0, c1)] ∧
      ∀ (f : Byte) (v : State), f >>> 4 = 0x0 ∨ f >>> 4 = 0x1 →
        v.phase = .opened → v.cfg = t.cfg → nextRead v = .word f c1 →
        ∃ u, exec .cmdEvt v = .next u ∧
          u.resp.evValid = true ∧ u.resp.evX = x ∧ u.resp.evY = y

/-! ### Wire words as instructions (log 6) -/

/-- Each outgoing row of the opcode table completes in phase `Open` for every operand: its word, as R49 to
R51 lay it out, is offered as `emit` of R77 offers it (words as instructions: the model's choice, log 6; that
`IDX` is as before: log 11). -/
def Obligations.OutgoingRowsOfferTheirWord : Prop :=
  ∀ s : State, s.phase = .opened →
    (∀ xr yr : BitVec 3, ∃ t, exec (.wLedOn xr yr) s = .next t ∧
      WordEmitted (0x20, xr.setWidth 8 <<< 4 ||| yr.setWidth 8) s t) ∧
    (∀ xr yr : BitVec 3, ∃ t, exec (.wLedOff xr yr) s = .next t ∧
      WordEmitted (0x10, xr.setWidth 8 <<< 4 ||| yr.setWidth 8) s t) ∧
    (∀ (a : BitVec 3) (d : Byte), ∃ t, exec (.wRow a d) s = .next t ∧
      WordEmitted (a.setWidth 8, d) s t) ∧
    (∀ (a : BitVec 3) (d : Byte), ∃ t, exec (.wCol a d) s = .next t ∧
      WordEmitted (0x80 ||| a.setWidth 8, d) s t) ∧
    (∀ v : Byte, ∃ t, exec (.wIntensity v) s = .next t ∧ WordEmitted (0x0A, v) s t)

/-- Each incoming row of the opcode table completes in phase `Open` for every operand: a button word gives
its event (R92 to R94), a word of an unknown family none (R95) (words as instructions: log 6). -/
def Obligations.IncomingRowsGiveTheirEvent : Prop :=
  ∀ s : State, s.phase = .opened →
    (∀ low xd yd : Nibble, ∃ t, exec (.eDown low xd yd) s = .next t ∧
      WordRead ((0x0 : Nibble) ++ low) (xd ++ yd) s t ∧
      t.resp = { status := 0, count := 0, evValid := true, evKind := .buttonDown,
                 evX := (unrotate s.cfg (xd.setWidth 8) (yd.setWidth 8)).1,
                 evY := (unrotate s.cfg (xd.setWidth 8) (yd.setWidth 8)).2 }) ∧
    (∀ low xd yd : Nibble, ∃ t, exec (.eUp low xd yd) s = .next t ∧
      WordRead ((0x1 : Nibble) ++ low) (xd ++ yd) s t ∧
      t.resp = { status := 0, count := 0, evValid := true, evKind := .buttonUp,
                 evX := (unrotate s.cfg (xd.setWidth 8) (yd.setWidth 8)).1,
                 evY := (unrotate s.cfg (xd.setWidth 8) (yd.setWidth 8)).2 }) ∧
    (∀ (f : BitVec 1) (low : Nibble) (p : Byte), ∃ t, exec (.eUnknown23 f low p) s = .next t ∧
      WordRead ((0x1 : BitVec 3) ++ f ++ low) p s t ∧ NoEventAnswered s t) ∧
    (∀ (f : BitVec 2) (low : Nibble) (p : Byte), ∃ t, exec (.eUnknown47 f low p) s = .next t ∧
      WordRead ((0x1 : BitVec 2) ++ f ++ low) p s t ∧ NoEventAnswered s t) ∧
    (∀ (f : BitVec 3) (low : Nibble) (p : Byte), ∃ t, exec (.eUnknown8F f low p) s = .next t ∧
      WordRead ((0x1 : BitVec 1) ++ f ++ low) p s t ∧ NoEventAnswered s t)

/-! ### The session -/

/-- R99: OPEN in phase `New` with legal extents completes. When the transport answers `ok`, `CFG` takes the
fields of `CFGIN`, the phase becomes `Open` and the status is OK; otherwise phase and `CFG` stay and the
status is `TransportFailure`. One `TxOpen`, no wire word; buffer and accumulators as before. OPEN runs in
`New` only, nothing else writes `CFG`; the example. -/
def Obligations.OpenBindsTheConfiguration : Prop :=
  (∀ (c : BitVec 12) (s : State), s.phase = .fresh →
    1 ≤ (c.extractLsb' 4 4).toNat → (c.extractLsb' 4 4).toNat ≤ 8 →
    1 ≤ (c.extractLsb' 8 4).toNat → (c.extractLsb' 8 4).toNat ≤ 8 →
    ∃ t, exec (.cmdOpen c) s = .next t ∧
      t.phase = (if nextOpen s then .opened else .fresh) ∧
      t.cfg = (if nextOpen s then
          { rowRev := c.getLsbD 0, colRev := c.getLsbD 1, swap := c.getLsbD 2, ftEn := c.getLsbD 3,
            rows := c.extractLsb' 4 4, cols := c.extractLsb' 8 4 }
        else s.cfg) ∧
      t.resp.status = (if nextOpen s then statusOk else statusTransportFailure) ∧
      t.resp.count = 0 ∧ t.resp.evValid = false ∧
      t.tr = { s.tr with opens := s.tr.opens.drop 1, drawn := s.tr.drawn + 1,
                         calls := s.tr.calls ++ [.txOpen (nextOpen s)] } ∧
      t.lat = s.lat ∧ t.host = s.host ∧ AccumulatorsKept s t ∧ BufferKept s t) ∧
  (∀ (c : BitVec 12) (s t : State), exec (.cmdOpen c) s = .next t → s.phase = .fresh) ∧
  (∀ (i : Instr) (s t : State), exec i s = .next t → t.cfg ≠ s.cfg → ∃ c, i = .cmdOpen c) ∧
  (∀ s : State, s.phase = .fresh → nextOpen s = true →
    ∃ t, exec (.cmdOpen 0x880) s = .next t ∧ t.phase = .opened ∧
      t.cfg = ⟨false, false, false, false, 8, 8⟩ ∧ t.resp.status = statusOk ∧
      offeredWords (newCalls s t) = [])

/-- R101 (decision D19): CLOSE in phase `Open` completes. The phase becomes `Done` whatever the transport
answers, the status tells the answer, `CFG` keeps its values. The equality also says that `IDX`, `EV_KIND`,
`EV_X` and `EV_Y` keep theirs, which is the model's choice (log 11). -/
def Obligations.CloseEndsTheSession : Prop :=
  ∀ s : State, s.phase = .opened →
    exec .cmdClose s = .next
      { s with
        phase := .closed
        resp := { s.resp with status := if nextClose s then 0 else 1, count := 0, evValid := false }
        tr := { s.tr with closes := s.tr.closes.drop 1, drawn := s.tr.drawn + 1,
                          calls := s.tr.calls ++ [.txClose (nextClose s)] } }

/-- R109: an unrecognised code completes in every phase with `UnsupportedOperation`, `COUNT = 0`,
`EV_VALID = 0`, no primitive called and session, buffer and accumulators untouched; the check comes at
decode, whatever the phase; no recognised code, MODE among them, is answered so. -/
def Obligations.UnrecognizedCodesAnswerUnsupported : Prop :=
  (∀ (low : BitVec 1) (s : State), ∃ t, exec (.unrecognizedAB low) s = .next t ∧
    AnswersUnsupported s t) ∧
  (∀ (low : BitVec 2) (s : State), ∃ t, exec (.unrecognizedCF low) s = .next t ∧
    AnswersUnsupported s t) ∧
  (∀ (s : State) (l : Latches) (rest : List HostItem), s.host = .present (.command l) :: rest →
    (10 ≤ l.op.toNat →
      ∃ t, step s = .next t ∧ AnswersUnsupported { s with host := rest, lat := l } t) ∧
    (l.op.toNat < 10 → ∀ t, step s = .next t → t.resp.status ≠ 2))

/-- R102, R104, R98 (decision D19: a model refuses): what is refused, and why, outside the phases and
operands of the transition table. The names are the model's, and that an OPEN outside `New` is refused for its
phase though its extents be illegal is its choice (log 8); that a wire word presented by itself outside `Open`
is refused is its choice too (log 6). -/
def Obligations.WrongPhaseOrExtentIsRefused : Prop :=
  ∀ s : State,
    (∀ c, s.phase ≠ .fresh → exec (.cmdOpen c) s = .refused .openOutsideNew) ∧
    (∀ c, s.phase = .fresh → ¬ (cfgOfImage c).Legal →
      exec (.cmdOpen c) s = .refused .extentOutOfRange) ∧
    (s.phase ≠ .opened → exec .cmdClose s = .refused .closeOutsideOpen ∧
      exec .cmdEvt s = .refused .commandOutsideOpen ∧
      (∀ i, isEncoderCommand i = true → exec i s = .refused .commandOutsideOpen) ∧
      ∀ i, isWireWord i = true → exec i s = .refused .wordOutsideOpen)

/-- R104 (decision D19), R113: a command answers a next state exactly in its phase and with its legal
operands; FRAME's buffer accesses never fault, whatever the state. That a wire word presented by itself runs
exactly in `Open` is the model's choice (log 6). -/
def Obligations.InstructionsAnswerExactlyInTheirPhase : Prop :=
  ∀ (i : Instr) (s : State), (∃ t, exec i s = .next t) ↔ Runs i s.phase

/-- R99 to R104: the phase changes only by an OPEN that the transport grants, from `New` to `Open`, and by
CLOSE, from `Open` to `Done` (decision D19). -/
def Obligations.OnlyOpenAndCloseMoveThePhase : Prop :=
  ∀ (i : Instr) (s t : State), exec i s = .next t →
    t.phase = s.phase ∨
    ((∃ c, i = .cmdOpen c) ∧ s.phase = .fresh ∧ nextOpen s = true ∧ t.phase = .opened) ∨
    (i = .cmdClose ∧ s.phase = .opened ∧ t.phase = .closed)

/-- R103: no instruction leads out of `Done`; only reset does, and it leads to `New`. -/
def Obligations.DoneIsLeftByResetOnly : Prop :=
  ∀ s t : State, s.phase = .closed → step s = .next t →
    ((∀ rest, s.host ≠ .reset :: rest) → t.phase = .closed) ∧
    (∀ rest, s.host = .reset :: rest → t.phase = .fresh)

/-- R23: no instruction but OPEN writes a field of `CFG`, OPEN is legal only in `New`, and so between two
resets `CFG` is written at most once: once the phase has left `New`, a step that is no reset neither
changes `CFG` nor leads back to `New`. -/
def Obligations.ConfigurationIsImmutableInASession : Prop :=
  (∀ (i : Instr) (s t : State), exec i s = .next t → t.cfg ≠ s.cfg →
    (∃ c, i = .cmdOpen c) ∧ s.phase = .fresh ∧ t.phase = .opened) ∧
  (∀ (c : BitVec 12) (s t : State), exec (.cmdOpen c) s = .next t → s.phase = .fresh) ∧
  (∀ s t : State, s.phase ≠ .fresh → (∀ rest, s.host ≠ .reset :: rest) → step s = .next t →
    t.cfg = s.cfg ∧ t.phase ≠ .fresh)

/-! ### The whole machine -/

/-- R20: no instruction but FRAME writes the working buffer. -/
def Obligations.OnlyFrameWritesTheBuffer : Prop :=
  ∀ (i : Instr) (s t : State), exec i s = .next t → (∀ xo yo f, i ≠ .cmdFrame xo yo f) →
    BufferKept s t

/-- The model's choice for the elements the spec gives no value (log 11; R18: `IDX` outside CLEAR and FRAME
is not specified; R22: the event latches have no meaning when `EV_VALID = 0`; R17: the operand latches are
held until the response). An instruction leaves them as it found them: `IDX` unless it is CLEAR, which
leaves `ROWS`, or FRAME, which leaves 8; the event latches unless it reports an event; the operand latches
always. -/
def Obligations.UnspecifiedElementsKeepTheirValues : Prop :=
  ∀ (i : Instr) (s t : State), exec i s = .next t →
    t.lat = s.lat ∧
    (t.resp.evValid = false → EventLatchesKept s t) ∧
    ((∃ st, i = .cmdClear st) → t.idx = s.cfg.rows) ∧
    ((∃ xo yo f, i = .cmdFrame xo yo f) → t.idx = 8) ∧
    ((∀ st, i ≠ .cmdClear st) → (∀ xo yo f, i ≠ .cmdFrame xo yo f) → t.idx = s.idx)

/-- R28: the buffer's byte accesses. A read gives what the last write to that index wrote, and a write leaves
every other index, and the rest of the state, alone. The model's choices (log 2): a write keeps the canonical
form, and an access at an index of 8 or more, which does not exist, is the fault `bufferIndexAbsent`. -/
def Obligations.BufferReadsWhatWasWritten : Prop :=
  (∀ (a : Nat) (v : Byte) (s : State), a < 8 →
    ∃ t, memWrite a v s = .ok t ∧ memRead a t = .ok v ∧
      (∀ b, b ≠ a → memRead b t = memRead b s) ∧
      (Memory.wf s.wb = true → Memory.wf t.wb = true) ∧
      t = { s with wb := t.wb }) ∧
  (∀ (a : Nat) (v : Byte) (s : State), 8 ≤ a →
    memRead a s = .error .bufferIndexAbsent ∧ memWrite a v s = .error .bufferIndexAbsent)

/-- Two buffers in canonical form that read alike at every index are equal as data (the model's canonical
form, log 2). -/
def Obligations.CanonicalBuffersWithEqualReadsAreEqual : Prop :=
  ∀ s t : State, Memory.wf s.wb = true → Memory.wf t.wb = true →
    (∀ a, memRead a s = memRead a t) → s.wb = t.wb

/-- R19, R30 to R33, R40: a primitive is called only while the engine holds the transport, that is in phase
`Open`, or by the OPEN that asks for it in `New`. The record of calls, which only grows, is the model's own
(log 7); for wire words presented by themselves the phase is the model's choice (log 6). -/
def Obligations.TransportIsCalledOnlyWhileHeld : Prop :=
  ∀ (i : Instr) (s t : State), exec i s = .next t →
    ∃ new, t.tr.calls = s.tr.calls ++ new ∧
      (new ≠ [] → s.phase = .opened ∨ ((∃ c, i = .cmdOpen c) ∧ s.phase = .fresh))

/-- The invariant holds after reset (R122; the values it speaks of beside `PHASE` are log 1). -/
def Obligations.InvariantHoldsAfterReset : Prop := EngineInv State.reset

/-- Every step keeps the invariant, from every state that has it: legal extents from OPEN on (R16, R23), a
canonical buffer of indices 0 to 7 (R28; the form is log 2's), `IDX` at most 8 (R18), never the reserved status (R107),
`COUNT` at most 16 (R21), and every word offered one of the formats of R49 to R51 (R48, R58, R90). -/
def Obligations.EveryStepKeepsTheInvariant : Prop :=
  ∀ s t : State, EngineInv s → step s = .next t → EngineInv t

/-- R27 (decision D19): the elements that hold no value after reset reach nothing a run can show. Two states
that differ only in those take steps with the same outcome: the same reason to stop, or next states with the
same phase, configuration (once there is one), host and transport. A command's response means the same in
both, and so does every response once the responses did. So no reset value of log 1 can be told from another.
(A wire word presented by itself, log 6, adds to whatever `CNT` holds; only `CNT` and `TXF` show it.) -/
def Obligations.ElementsWithoutResetValueReachNoOutcome : Prop :=
  ∀ a b : State, SameSession a b →
    OutcomesAgree (fun t u => SameSession t u ∧
      ((∃ l rest, a.host = .present (.command l) :: rest) → SameResponse t.resp u.resp) ∧
      (SameResponse a.resp b.resp → SameResponse t.resp u.resp)) (step a) (step b)

/-- R26, R22: the response to a command depends on the command, the session and the transport's answers
only, not on what an earlier command left in the buffer, the accumulators or the latches. -/
def Obligations.ResponseCarriesNothingFromEarlierCommands : Prop :=
  ∀ (a b : State) (l : Latches) (rest : List HostItem), SameSession a b →
    a.host = .present (.command l) :: rest →
    OutcomesAgree (fun t u => SameResponse t.resp u.resp) (step a) (step b)
end

