-- ==== Sys2Proof/Laws/State.lean ====
section
/-! SUPPORT. What each shared operation leaves of each field of the state: one lemma for each field, true
by `rfl`, so that no proof unfolds a record update. -/

namespace Sys2Proof.Machine

@[simp] theorem prologue_phase (s : State) : (prologue s).phase = s.phase := rfl
@[simp] theorem prologue_cfg (s : State) : (prologue s).cfg = s.cfg := rfl
@[simp] theorem prologue_wb (s : State) : (prologue s).wb = s.wb := rfl
@[simp] theorem prologue_idx (s : State) : (prologue s).idx = s.idx := rfl
@[simp] theorem prologue_cnt (s : State) : (prologue s).cnt = 0 := rfl
@[simp] theorem prologue_txf (s : State) : (prologue s).txf = false := rfl
@[simp] theorem prologue_lat (s : State) : (prologue s).lat = s.lat := rfl
@[simp] theorem prologue_resp (s : State) : (prologue s).resp = s.resp := rfl
@[simp] theorem prologue_host (s : State) : (prologue s).host = s.host := rfl
@[simp] theorem prologue_tr (s : State) : (prologue s).tr = s.tr := rfl

@[simp] theorem respond_phase (st : BitVec 2) (n : Byte) (s : State) : (respond st n s).phase = s.phase := rfl
@[simp] theorem respond_cfg (st : BitVec 2) (n : Byte) (s : State) : (respond st n s).cfg = s.cfg := rfl
@[simp] theorem respond_wb (st : BitVec 2) (n : Byte) (s : State) : (respond st n s).wb = s.wb := rfl
@[simp] theorem respond_idx (st : BitVec 2) (n : Byte) (s : State) : (respond st n s).idx = s.idx := rfl
@[simp] theorem respond_cnt (st : BitVec 2) (n : Byte) (s : State) : (respond st n s).cnt = s.cnt := rfl
@[simp] theorem respond_txf (st : BitVec 2) (n : Byte) (s : State) : (respond st n s).txf = s.txf := rfl
@[simp] theorem respond_lat (st : BitVec 2) (n : Byte) (s : State) : (respond st n s).lat = s.lat := rfl
@[simp] theorem respond_resp (st : BitVec 2) (n : Byte) (s : State) : (respond st n s).resp = { s.resp with status := st, count := n, evValid := false } := rfl
@[simp] theorem respond_host (st : BitVec 2) (n : Byte) (s : State) : (respond st n s).host = s.host := rfl
@[simp] theorem respond_tr (st : BitVec 2) (n : Byte) (s : State) : (respond st n s).tr = s.tr := rfl

@[simp] theorem epilogue_phase (s : State) : (epilogue s).phase = s.phase := rfl
@[simp] theorem epilogue_cfg (s : State) : (epilogue s).cfg = s.cfg := rfl
@[simp] theorem epilogue_wb (s : State) : (epilogue s).wb = s.wb := rfl
@[simp] theorem epilogue_idx (s : State) : (epilogue s).idx = s.idx := rfl
@[simp] theorem epilogue_cnt (s : State) : (epilogue s).cnt = s.cnt := rfl
@[simp] theorem epilogue_txf (s : State) : (epilogue s).txf = s.txf := rfl
@[simp] theorem epilogue_lat (s : State) : (epilogue s).lat = s.lat := rfl
@[simp] theorem epilogue_resp (s : State) : (epilogue s).resp = 
    { s.resp with status := statusOfTxf s.txf, count := s.cnt, evValid := false } := rfl
@[simp] theorem epilogue_host (s : State) : (epilogue s).host = s.host := rfl
@[simp] theorem epilogue_tr (s : State) : (epilogue s).tr = s.tr := rfl

@[simp] theorem failWith_phase (st : BitVec 2) (s : State) : (failWith st s).phase = s.phase := rfl
@[simp] theorem failWith_cfg (st : BitVec 2) (s : State) : (failWith st s).cfg = s.cfg := rfl
@[simp] theorem failWith_wb (st : BitVec 2) (s : State) : (failWith st s).wb = s.wb := rfl
@[simp] theorem failWith_idx (st : BitVec 2) (s : State) : (failWith st s).idx = s.idx := rfl
@[simp] theorem failWith_cnt (st : BitVec 2) (s : State) : (failWith st s).cnt = s.cnt := rfl
@[simp] theorem failWith_txf (st : BitVec 2) (s : State) : (failWith st s).txf = s.txf := rfl
@[simp] theorem failWith_lat (st : BitVec 2) (s : State) : (failWith st s).lat = s.lat := rfl
@[simp] theorem failWith_resp (st : BitVec 2) (s : State) : (failWith st s).resp = { s.resp with status := st, count := 0, evValid := false } := rfl
@[simp] theorem failWith_host (st : BitVec 2) (s : State) : (failWith st s).host = s.host := rfl
@[simp] theorem failWith_tr (st : BitVec 2) (s : State) : (failWith st s).tr = s.tr := rfl

@[simp] theorem noEvent_phase (s : State) : (noEvent s).phase = s.phase := rfl
@[simp] theorem noEvent_cfg (s : State) : (noEvent s).cfg = s.cfg := rfl
@[simp] theorem noEvent_wb (s : State) : (noEvent s).wb = s.wb := rfl
@[simp] theorem noEvent_idx (s : State) : (noEvent s).idx = s.idx := rfl
@[simp] theorem noEvent_cnt (s : State) : (noEvent s).cnt = s.cnt := rfl
@[simp] theorem noEvent_txf (s : State) : (noEvent s).txf = s.txf := rfl
@[simp] theorem noEvent_lat (s : State) : (noEvent s).lat = s.lat := rfl
@[simp] theorem noEvent_resp (s : State) : (noEvent s).resp = { s.resp with status := statusOk, count := 0, evValid := false } := rfl
@[simp] theorem noEvent_host (s : State) : (noEvent s).host = s.host := rfl
@[simp] theorem noEvent_tr (s : State) : (noEvent s).tr = s.tr := rfl

@[simp] theorem buttonEvent_phase (k : EvKind) (xd yd : Byte) (s : State) : (buttonEvent k xd yd s).phase = s.phase := rfl
@[simp] theorem buttonEvent_cfg (k : EvKind) (xd yd : Byte) (s : State) : (buttonEvent k xd yd s).cfg = s.cfg := rfl
@[simp] theorem buttonEvent_wb (k : EvKind) (xd yd : Byte) (s : State) : (buttonEvent k xd yd s).wb = s.wb := rfl
@[simp] theorem buttonEvent_idx (k : EvKind) (xd yd : Byte) (s : State) : (buttonEvent k xd yd s).idx = s.idx := rfl
@[simp] theorem buttonEvent_cnt (k : EvKind) (xd yd : Byte) (s : State) : (buttonEvent k xd yd s).cnt = s.cnt := rfl
@[simp] theorem buttonEvent_txf (k : EvKind) (xd yd : Byte) (s : State) : (buttonEvent k xd yd s).txf = s.txf := rfl
@[simp] theorem buttonEvent_lat (k : EvKind) (xd yd : Byte) (s : State) : (buttonEvent k xd yd s).lat = s.lat := rfl
@[simp] theorem buttonEvent_resp (k : EvKind) (xd yd : Byte) (s : State) : (buttonEvent k xd yd s).resp = 
    { status := statusOk, count := 0, evValid := true, evKind := k, evX := (unrotate s.cfg xd yd).1,
      evY := (unrotate s.cfg xd yd).2 } := rfl
@[simp] theorem buttonEvent_host (k : EvKind) (xd yd : Byte) (s : State) : (buttonEvent k xd yd s).host = s.host := rfl
@[simp] theorem buttonEvent_tr (k : EvKind) (xd yd : Byte) (s : State) : (buttonEvent k xd yd s).tr = s.tr := rfl

@[simp] theorem recordRead_phase (a : ReadAnswer) (s : State) : (recordRead a s).phase = s.phase := rfl
@[simp] theorem recordRead_cfg (a : ReadAnswer) (s : State) : (recordRead a s).cfg = s.cfg := rfl
@[simp] theorem recordRead_wb (a : ReadAnswer) (s : State) : (recordRead a s).wb = s.wb := rfl
@[simp] theorem recordRead_idx (a : ReadAnswer) (s : State) : (recordRead a s).idx = s.idx := rfl
@[simp] theorem recordRead_cnt (a : ReadAnswer) (s : State) : (recordRead a s).cnt = s.cnt := rfl
@[simp] theorem recordRead_txf (a : ReadAnswer) (s : State) : (recordRead a s).txf = s.txf := rfl
@[simp] theorem recordRead_lat (a : ReadAnswer) (s : State) : (recordRead a s).lat = s.lat := rfl
@[simp] theorem recordRead_resp (a : ReadAnswer) (s : State) : (recordRead a s).resp = s.resp := rfl
@[simp] theorem recordRead_host (a : ReadAnswer) (s : State) : (recordRead a s).host = s.host := rfl
@[simp] theorem recordRead_tr (a : ReadAnswer) (s : State) : (recordRead a s).tr = { s.tr with calls := s.tr.calls ++ [.rxRead a] } := rfl

@[simp] theorem emit_phase (w : Byte × Byte) (s : State) : (emit w s).phase = s.phase := rfl
@[simp] theorem emit_cfg (w : Byte × Byte) (s : State) : (emit w s).cfg = s.cfg := rfl
@[simp] theorem emit_wb (w : Byte × Byte) (s : State) : (emit w s).wb = s.wb := rfl
@[simp] theorem emit_idx (w : Byte × Byte) (s : State) : (emit w s).idx = s.idx := rfl
@[simp] theorem emit_cnt (w : Byte × Byte) (s : State) : (emit w s).cnt = cntAfter s.cnt (draw s.tr.writes (Config.txWriteFree s.tr.drawn)).1 := rfl
@[simp] theorem emit_txf (w : Byte × Byte) (s : State) : (emit w s).txf = txfAfter s.txf (draw s.tr.writes (Config.txWriteFree s.tr.drawn)).1 := rfl
@[simp] theorem emit_lat (w : Byte × Byte) (s : State) : (emit w s).lat = s.lat := rfl
@[simp] theorem emit_resp (w : Byte × Byte) (s : State) : (emit w s).resp = s.resp := rfl
@[simp] theorem emit_host (w : Byte × Byte) (s : State) : (emit w s).host = s.host := rfl
@[simp] theorem emit_tr (w : Byte × Byte) (s : State) : (emit w s).tr = 
    { s.tr with
      writes := (draw s.tr.writes (Config.txWriteFree s.tr.drawn)).2
      drawn := s.tr.drawn + 1
      calls := s.tr.calls ++
        [.txWrite w.1 w.2 (draw s.tr.writes (Config.txWriteFree s.tr.drawn)).1] } := rfl

@[simp] theorem drawRead_phase (s : State) : ((drawRead s).2).phase = s.phase := rfl
@[simp] theorem drawRead_cfg (s : State) : ((drawRead s).2).cfg = s.cfg := rfl
@[simp] theorem drawRead_wb (s : State) : ((drawRead s).2).wb = s.wb := rfl
@[simp] theorem drawRead_idx (s : State) : ((drawRead s).2).idx = s.idx := rfl
@[simp] theorem drawRead_cnt (s : State) : ((drawRead s).2).cnt = s.cnt := rfl
@[simp] theorem drawRead_txf (s : State) : ((drawRead s).2).txf = s.txf := rfl
@[simp] theorem drawRead_lat (s : State) : ((drawRead s).2).lat = s.lat := rfl
@[simp] theorem drawRead_resp (s : State) : ((drawRead s).2).resp = s.resp := rfl
@[simp] theorem drawRead_host (s : State) : ((drawRead s).2).host = s.host := rfl
@[simp] theorem drawRead_tr (s : State) : ((drawRead s).2).tr = 
    { s.tr with
      reads := (draw s.tr.reads (Config.rxReadFree s.tr.drawn)).2
      drawn := s.tr.drawn + 1 } := rfl

@[simp] theorem drawRead_answer (s : State) : (drawRead s).1 = nextRead s := rfl

@[simp] theorem txOpen_phase (s : State) : ((txOpen s).2).phase = s.phase := rfl
@[simp] theorem txOpen_cfg (s : State) : ((txOpen s).2).cfg = s.cfg := rfl
@[simp] theorem txOpen_wb (s : State) : ((txOpen s).2).wb = s.wb := rfl
@[simp] theorem txOpen_idx (s : State) : ((txOpen s).2).idx = s.idx := rfl
@[simp] theorem txOpen_cnt (s : State) : ((txOpen s).2).cnt = s.cnt := rfl
@[simp] theorem txOpen_txf (s : State) : ((txOpen s).2).txf = s.txf := rfl
@[simp] theorem txOpen_lat (s : State) : ((txOpen s).2).lat = s.lat := rfl
@[simp] theorem txOpen_resp (s : State) : ((txOpen s).2).resp = s.resp := rfl
@[simp] theorem txOpen_host (s : State) : ((txOpen s).2).host = s.host := rfl
@[simp] theorem txOpen_tr (s : State) : ((txOpen s).2).tr = 
    { s.tr with
      opens := (draw s.tr.opens (Config.txOpenFree s.tr.drawn)).2
      drawn := s.tr.drawn + 1
      calls := s.tr.calls ++ [.txOpen (nextOpen s)] } := rfl

@[simp] theorem txOpen_answer (s : State) : (txOpen s).1 = nextOpen s := rfl

@[simp] theorem txClose_phase (s : State) : ((txClose s).2).phase = s.phase := rfl
@[simp] theorem txClose_cfg (s : State) : ((txClose s).2).cfg = s.cfg := rfl
@[simp] theorem txClose_wb (s : State) : ((txClose s).2).wb = s.wb := rfl
@[simp] theorem txClose_idx (s : State) : ((txClose s).2).idx = s.idx := rfl
@[simp] theorem txClose_cnt (s : State) : ((txClose s).2).cnt = s.cnt := rfl
@[simp] theorem txClose_txf (s : State) : ((txClose s).2).txf = s.txf := rfl
@[simp] theorem txClose_lat (s : State) : ((txClose s).2).lat = s.lat := rfl
@[simp] theorem txClose_resp (s : State) : ((txClose s).2).resp = s.resp := rfl
@[simp] theorem txClose_host (s : State) : ((txClose s).2).host = s.host := rfl
@[simp] theorem txClose_tr (s : State) : ((txClose s).2).tr = 
    { s.tr with
      closes := (draw s.tr.closes (Config.txCloseFree s.tr.drawn)).2
      drawn := s.tr.drawn + 1
      calls := s.tr.calls ++ [.txClose (nextClose s)] } := rfl

@[simp] theorem txClose_answer (s : State) : (txClose s).1 = nextClose s := rfl

end Sys2Proof.Machine
end

