-- ==== Sys2Proof/Laws/Memory.lean ====
section
/-! SUPPORT. The working buffer: read after write, a write leaves the other bytes alone, every operation
keeps the canonical form. -/

namespace Sys2Proof.Machine

theorem Memory.lookup_store_same (m : Memory) (a : Nat) (v : Byte) :
    Memory.lookup (Memory.store m a v) a = some v := by
  induction m with
  | nil => simp [Memory.store, Memory.lookup]
  | cons c m ih =>
    simp only [Memory.store]
    split
    · simp [Memory.lookup]
    · split
      · simp [Memory.lookup]
      · have : c.1 ≠ a := fun h => by simp_all
        simp [Memory.lookup, this, ih]

theorem Memory.lookup_store_other (m : Memory) (a b : Nat) (v : Byte) (h : b ≠ a) :
    Memory.lookup (Memory.store m a v) b = Memory.lookup m b := by
  induction m with
  | nil => simp [Memory.store, Memory.lookup, Ne.symm h]
  | cons c m ih =>
    simp only [Memory.store]
    split
    · simp [Memory.lookup, Ne.symm h]
    · split
      · rename_i h2
        subst h2
        simp [Memory.lookup, Ne.symm h]
      · simp [Memory.lookup, ih]

theorem Memory.mem_keys_store (m : Memory) (a k : Nat) (v : Byte)
    (h : k ∈ (Memory.store m a v).map Prod.fst) : k = a ∨ k ∈ m.map Prod.fst := by
  induction m with
  | nil => simpa [Memory.store] using h
  | cons c m ih =>
    simp only [Memory.store] at h
    split at h
    · simpa using h
    · split at h
      · simp only [List.map_cons, List.mem_cons] at h ⊢
        exact h.imp_right Or.inr
      · simp only [List.map_cons, List.mem_cons] at h ⊢
        rcases h with h | h
        · exact .inr (.inl h)
        · exact (ih h).imp_right Or.inr

theorem Memory.wf_iff (m : Memory) :
    Memory.wf m = true ↔
      (m.map Prod.fst).Pairwise (· < ·) ∧ ∀ k ∈ m.map Prod.fst, k < 8 := by
  simp [Memory.wf, List.all_eq_true]

theorem Memory.pairwise_store (m : Memory) (a : Nat) (v : Byte)
    (h : (m.map Prod.fst).Pairwise (· < ·)) :
    ((Memory.store m a v).map Prod.fst).Pairwise (· < ·) := by
  induction m with
  | nil => simp [Memory.store]
  | cons c m ih =>
    simp only [List.map_cons, List.pairwise_cons] at h
    simp only [Memory.store]
    split
    · rename_i hlt
      simp only [List.map_cons, List.pairwise_cons]
      refine ⟨fun k hk => ?_, h⟩
      rcases List.mem_cons.mp hk with rfl | hk
      · exact hlt
      · exact Nat.lt_trans hlt (h.1 k hk)
    · split
      · rename_i heq
        subst heq
        exact List.pairwise_cons.mpr h
      · simp only [List.map_cons, List.pairwise_cons]
        refine ⟨fun k hk => ?_, ih h.2⟩
        rcases Memory.mem_keys_store m a k v hk with rfl | hk
        · omega
        · exact h.1 k hk

/-- A write below 8 keeps the canonical form. -/
theorem Memory.wf_store (m : Memory) (a : Nat) (v : Byte) (h : Memory.wf m = true) (ha : a < 8) :
    Memory.wf (Memory.store m a v) = true := by
  rw [Memory.wf_iff] at h ⊢
  refine ⟨Memory.pairwise_store m a v h.1, fun k hk => ?_⟩
  rcases Memory.mem_keys_store m a k v hk with rfl | hk
  · exact ha
  · exact h.2 k hk

theorem memWrite_ok (a : Nat) (v : Byte) (s : State) (h : a < 8) :
    memWrite a v s = .ok { s with wb := Memory.store s.wb a v } := by
  simp [memWrite, h]

/-- A read depends on the buffer only. -/
theorem memRead_congr {s t : State} (a : Nat) (h : t.wb = s.wb) : memRead a t = memRead a s := by
  simp [memRead, h]

theorem memRead_of_lookup {s : State} {a : Nat} {v : Byte} (ha : a < 8)
    (h : Memory.lookup s.wb a = some v) : memRead a s = .ok v := by
  simp [memRead, ha, h]

/-- Everything a run of byte writes does: it succeeds inside the buffer, changes the buffer only, each
index of the run reads the byte written, and the canonical form is kept. -/
theorem writeBytes_spec (vs : List Byte) (a : Nat) (s : State) (h : a + vs.length ≤ 8) :
    ∃ t, writeBytes vs a s = .ok t ∧ t = { s with wb := t.wb } ∧
      (∀ i, i < vs.length → Memory.lookup t.wb (a + i) = some (vs.getD i 0)) ∧
      (∀ b, b < a → Memory.lookup t.wb b = Memory.lookup s.wb b) ∧
      (Memory.wf s.wb = true → Memory.wf t.wb = true) := by
  induction vs generalizing a s with
  | nil => exact ⟨s, rfl, rfl, by simp, by simp, id⟩
  | cons v vs ih =>
    simp only [List.length_cons] at h
    obtain ⟨t, ht, hs, hin, hbelow, hwf⟩ :=
      ih (a + 1) { s with wb := Memory.store s.wb a v } (by omega)
    refine ⟨t, ?_, ?_, ?_, ?_, ?_⟩
    · simp only [writeBytes, memWrite_ok a v s (by omega), ht]
    · rw [hs]
    · intro i hi
      cases i with
      | zero =>
        rw [Nat.add_zero, hbelow a (by omega)]
        simpa using Memory.lookup_store_same s.wb a v
      | succ i =>
        have := hin i (by simpa using hi)
        rw [show a + (i + 1) = a + 1 + i by omega]
        simpa using this
    · intro b hb
      rw [hbelow b (by omega)]
      exact Memory.lookup_store_other s.wb a b v (by omega)
    · intro hw
      exact hwf (Memory.wf_store s.wb a v hw (by omega))

end Sys2Proof.Machine
end

