-- ==== Sys2Proof/Laws/Ops.lean ====
section
/-! SUPPORT. What emitting words does, said once: `emitMany ws` offers the words in order, adds up the
bytes accepted and notes a failure; the loops of CLEAR and FRAME are runs of it. -/

namespace Sys2Proof.Machine

theorem draw_rest {α : Type} (l : List α) (f : α) : (draw l f).2 = l.drop 1 := by
  cases l <;> rfl

/-- Offer a list of words, one after another. -/
def emitMany (ws : List (Byte × Byte)) (s : State) : State := ws.foldl (fun t w => emit w t) s

theorem emitMany_cons (w : Byte × Byte) (ws : List (Byte × Byte)) (s : State) :
    emitMany (w :: ws) s = emitMany ws (emit w s) := rfl

theorem emitMany_append (ws vs : List (Byte × Byte)) (s : State) :
    emitMany (ws ++ vs) s = emitMany vs (emitMany ws s) := by
  simp [emitMany]

theorem writeAnswers_succ (k : Nat) (w : Byte × Byte) (s : State) :
    writeAnswers (k + 1) s =
      (draw s.tr.writes (Config.txWriteFree s.tr.drawn)).1 :: writeAnswers k (emit w s) := rfl

theorem writeAnswers_congr (k : Nat) {s t : State} (hw : t.tr.writes = s.tr.writes)
    (hd : t.tr.drawn = s.tr.drawn) : writeAnswers k t = writeAnswers k s := by
  simp [writeAnswers, hw, hd]

theorem nextWrites_length (k : Nat) (l : List (Fin 3)) (n : Nat) :
    (nextWrites k l n).length = k := by
  induction k generalizing l n with
  | zero => rfl
  | succ k ih => simp [nextWrites, ih]

theorem totalAccepted_le (ns : List (Fin 3)) : totalAccepted ns ≤ 2 * ns.length := by
  induction ns with
  | nil => simp [totalAccepted]
  | cons n ns ih => simp [totalAccepted] at *; omega

theorem totalAccepted_full (ns : List (Fin 3)) :
    totalAccepted ns = 2 * ns.length ↔ ∀ n ∈ ns, n = 2 := by
  induction ns with
  | nil => simp [totalAccepted]
  | cons n ns ih =>
    have h1 := totalAccepted_le ns
    have h2 : n = 2 ↔ n.val = 2 := Fin.ext_iff
    simp only [totalAccepted, List.map_cons, List.sum_cons, List.length_cons, List.mem_cons,
      forall_eq_or_imp, h2] at *
    rw [← ih]
    omega

/-- Everything a run of emitted words does beside the transport. -/
theorem emitMany_spec (ws : List (Byte × Byte)) (s : State) :
    (emitMany ws s).phase = s.phase ∧ (emitMany ws s).cfg = s.cfg ∧ (emitMany ws s).wb = s.wb ∧
    (emitMany ws s).idx = s.idx ∧ (emitMany ws s).lat = s.lat ∧ (emitMany ws s).resp = s.resp ∧
    (emitMany ws s).host = s.host ∧
    (emitMany ws s).cnt =
      s.cnt + BitVec.ofNat 8 (totalAccepted (writeAnswers ws.length s)) ∧
    (emitMany ws s).txf =
      (s.txf || !decide (∀ n ∈ writeAnswers ws.length s, n = 2)) := by
  induction ws generalizing s with
  | nil => simp [emitMany, writeAnswers, nextWrites, totalAccepted]
  | cons w ws ih =>
    obtain ⟨h1, h2, h3, h4, h5, h6, h7, h8, h9⟩ := ih (emit w s)
    rw [emitMany_cons]
    refine ⟨h1, h2, h3, h4, h5, h6, h7, ?_, ?_⟩
    · rw [h8, List.length_cons, writeAnswers_succ _ w]
      simp [totalAccepted, cntAfter, BitVec.ofNat_add, BitVec.add_assoc]
    · rw [h9, List.length_cons, writeAnswers_succ _ w]
      simp [txfAfter, Bool.or_assoc, Bool.decide_and]

/-- Everything a run of emitted words does to the transport. -/
theorem emitMany_offered (ws : List (Byte × Byte)) (s : State) : Offered ws s (emitMany ws s) := by
  induction ws generalizing s with
  | nil => exact ⟨by simp [emitMany], by simp [emitMany], rfl, rfl, rfl, rfl⟩
  | cons w ws ih =>
    obtain ⟨h1, h2, h3, h4, h5, h6⟩ := ih (emit w s)
    rw [emitMany_cons]
    refine ⟨?_, ?_, ?_, h4, h5, h6⟩
    · rw [h1, List.length_cons, writeAnswers_succ _ w]
      simp
    · rw [h2]
      simp [draw_rest]
    · rw [h3]
      simp
      omega

/-- A command that emits the words `ws` between the prologue and the epilogue, with `k` applied to the
state in between where `k` leaves the transport and the accumulators alone. -/
theorem commandEmits_of (ws : List (Byte × Byte)) (s t : State) (hp : t.phase = s.phase)
    (hc : t.cfg = s.cfg) (hl : t.lat = s.lat) (hh : t.host = s.host)
    (hr : t.resp = { s.resp with status := statusOfTxf (emitMany ws (prologue s)).txf,
                                 count := (emitMany ws (prologue s)).cnt, evValid := false })
    (hcnt : t.cnt = (emitMany ws (prologue s)).cnt) (htxf : t.txf = (emitMany ws (prologue s)).txf)
    (htr : t.tr = (emitMany ws (prologue s)).tr) : CommandEmits ws s t := by
  have hspec := emitMany_spec ws (prologue s)
  have hcnt' := hspec.2.2.2.2.2.2.2.1
  have htxf' := hspec.2.2.2.2.2.2.2.2
  have hoff := emitMany_offered ws (prologue s)
  have hans : writeAnswers ws.length (prologue s) = writeAnswers ws.length s := rfl
  rw [hans] at hcnt' htxf'
  refine
    { offered := ?_, count := ?_, status := ?_, evValid := ?_, cnt := ?_, txf := ?_,
      session := ⟨hp, hc, hl, hh⟩ }
  · obtain ⟨h1, h2, h3, h4, h5, h6⟩ := hoff
    exact ⟨by rw [htr, h1]; rfl, by rw [htr, h2]; rfl, by rw [htr, h3]; rfl, by rw [htr, h4]; rfl,
      by rw [htr, h5]; rfl, by rw [htr, h6]; rfl⟩
  · simp [hr, hcnt']
  · rw [hr]
    show statusOfTxf (emitMany ws (prologue s)).txf = _
    rw [htxf']
    by_cases h : ∀ n ∈ writeAnswers ws.length s, n = 2
    · rw [decide_eq_true h, if_pos h]
      rfl
    · rw [decide_eq_false h, if_neg h]
      rfl
  · rw [hr]
  · rw [hcnt, hr]
  · rw [htxf, htxf']
    simp

/-- A one-word command (R77). -/
theorem emitOne_answers (w : Byte × Byte) (s : State) : AnswersWithWords [w] s (emitOne w s) :=
  ⟨commandEmits_of [w] s _ rfl rfl rfl rfl rfl rfl rfl rfl, fun _ => rfl⟩

theorem inOpen_opened {s : State} (h : s.phase = .opened) (r : Result) : inOpen s r = r := by
  simp [inOpen, h]

theorem wordInOpen_opened {s : State} (h : s.phase = .opened) (t : State) :
    wordInOpen s t = .next t := by
  simp [wordInOpen, h]

/-- A gated command answers a next state only in phase `Open`. -/
theorem inOpen_next {s t : State} {r : Result} (h : inOpen s r = .next t) :
    s.phase = .opened ∧ r = .next t := by
  unfold inOpen at h
  split at h
  · exact ⟨‹_›, h⟩
  · cases h

theorem wordInOpen_next {s t u : State} (h : wordInOpen s t = .next u) :
    s.phase = .opened ∧ t = u := by
  unfold wordInOpen at h
  split at h
  · exact ⟨‹_›, by cases h; rfl⟩
  · cases h

/-- `IDX` goes its own way: emitting words neither reads nor writes it. -/
theorem emitMany_idx (ws : List (Byte × Byte)) (s : State) (i : BitVec 4) :
    emitMany ws { s with idx := i } = { emitMany ws s with idx := i } := by
  induction ws generalizing s with
  | nil => rfl
  | cons w ws ih => exact ih (emit w s)

/-- Nor does it read or write the buffer. -/
theorem emitMany_wb (ws : List (Byte × Byte)) (s : State) (m : Memory) :
    emitMany ws { s with wb := m } = { emitMany ws s with wb := m } := by
  induction ws generalizing s with
  | nil => rfl
  | cons w ws ih => exact ih (emit w s)

/-- CLEAR's loop from index `k`: the raw row-write words of the next `n` indices. -/
theorem clearRounds_eq (n k : Nat) (s : State) (hk : s.idx = BitVec.ofNat 4 k) (h : k + n ≤ 16) :
    clearRounds n s =
      { emitMany ((List.range' k n).map fun i => (BitVec.ofNat 8 i, 0x00)) s with
        idx := BitVec.ofNat 4 (k + n) } := by
  induction n generalizing k s with
  | zero => simp [clearRounds, emitMany, ← hk]
  | succ n ih =>
    have hw : opcodeByte Config.opcRow ||| s.idx.setWidth 8 = BitVec.ofNat 8 k := by
      have : opcodeByte Config.opcRow = 0 := by decide
      rw [this, hk]
      apply BitVec.eq_of_toNat_eq
      simp
      omega
    rw [clearRounds, clearRound, hw, ih (k + 1) _ _ (by omega)]
    · simp only [List.range'_succ, List.map_cons, emitMany_cons]
      rw [emitMany_idx]
      simp [Nat.add_assoc, Nat.add_comm 1 n]
    · show (emit _ s).idx + 1 = _
      rw [emit_idx, hk, BitVec.ofNat_add]
      rfl

/-- FRAME's loop from index `k`, where the buffer lists the bytes `buf`: the line words of the next `n`
indices; it never faults there. -/
theorem frameRounds_eq (buf : List Byte) (n k : Nat) (s : State) (hk : s.idx = BitVec.ofNat 4 k)
    (h : k + n ≤ 8)
    (hb : ∀ i, i < 8 → Memory.lookup s.wb i = some (buf.getD i 0)) :
    frameRounds n s =
      .ok { emitMany ((List.range' k n).map fun i =>
              lineWord s.cfg .row (BitVec.ofNat 8 i) (buf.getD i 0)) s with
            idx := BitVec.ofNat 4 (k + n) } := by
  induction n generalizing k s with
  | zero => simp [frameRounds, emitMany, ← hk]
  | succ n ih =>
    have hk' : s.idx.toNat = k := by rw [hk]; simp; omega
    have hr : memRead s.idx.toNat s = .ok (buf.getD k 0) := by
      rw [hk']
      exact memRead_of_lookup (by omega) (hb k (by omega))
    have hz : s.idx.setWidth 8 = BitVec.ofNat 8 k := by
      apply BitVec.eq_of_toNat_eq
      rw [hk]
      simp
      omega
    rw [frameRounds, hr]
    simp only
    rw [hz, ih (k + 1) _ _ (by omega)]
    · simp only [List.range'_succ, List.map_cons, emitMany_cons]
      rw [emitMany_idx]
      simp [Nat.add_assoc, Nat.add_comm 1 n]
    · exact fun i hi => by simpa using hb i hi
    · show (emit _ s).idx + 1 = _
      rw [emit_idx, hk, BitVec.ofNat_add]
      rfl

/-- The words FRAME emits for the bytes `buf` (R89). -/
def frameWords (c : Cfg) (buf : List Byte) : List (Byte × Byte) :=
  (List.range' 0 8).map fun i => lineWord c .row (BitVec.ofNat 8 i) (buf.getD i 0)

/-- Everything FRAME's body does: it never faults; the buffer holds the source bytes; their line words
have been emitted after the prologue; nothing else but `IDX` has changed. -/
theorem frameBody_spec (ft : Byte → Byte → Bytes8 → Bytes8) (xoff yoff : Byte) (f : Bytes8)
    (s : State) :
    ∃ m : Memory, frameBody ft xoff yoff f s =
        .ok { emitMany (frameWords s.cfg (frameBytes (frameSource ft s.cfg xoff yoff f)))
                (prologue s) with wb := m, idx := 8 } ∧
      (∀ i, i < 8 → Memory.lookup m i =
        some ((frameBytes (frameSource ft s.cfg xoff yoff f)).getD i 0)) ∧
      (Memory.wf s.wb = true → Memory.wf m = true) := by
  obtain ⟨t, ht, hs, hin, -, hwf⟩ :=
    writeBytes_spec (frameBytes (frameSource ft s.cfg xoff yoff f)) 0 (prologue s)
      (by simp [frameBytes])
  have hin' : ∀ i, i < 8 → Memory.lookup t.wb i =
      some ((frameBytes (frameSource ft s.cfg xoff yoff f)).getD i 0) := fun i hi => by
    simpa using hin i (by simpa [frameBytes] using hi)
  refine ⟨t.wb, ?_, hin', hwf⟩
  have hround := frameRounds_eq (frameBytes (frameSource ft s.cfg xoff yoff f)) 8 0
    { t with idx := 0 } rfl (by omega) hin'
  have hcfg : t.cfg = s.cfg := by rw [hs]; rfl
  rw [frameBody, ht]
  simp only
  rw [hround]
  simp only [hcfg, frameWords]
  rw [emitMany_idx, hs, emitMany_wb]
  rfl

end Sys2Proof.Machine
end

