-- ==== Sys2Proof/Laws/Decode.lean ====
section
/-! SUPPORT. The words the encoder builds are words the outgoing decoder takes (spec/30_encoding.md R49 to
R51): a line word is a row or column write, an LED word an LED word, and so on. -/

namespace Sys2Proof.Machine

/-- A byte 0 in `0x00` to `0x07` is a row write. -/
theorem decodeOutgoing_row (b0 d : Byte) (h : b0.extractLsb' 3 5 = 0) :
    decodeOutgoing b0 d = .ok (.wRow (b0.extractLsb' 0 3) d) := by
  have key : ∀ b : Byte, b.extractLsb' 3 5 = 0 → b ≠ Config.opbIntensity ∧
      b ≠ Config.opcLedOn ++ (0x0 : Nibble) ∧ b ≠ Config.opcLedOff ++ (0x0 : Nibble) ∧
      b.extractLsb' 3 5 = Config.opcRow ++ (0x0 : BitVec 1) := by decide
  obtain ⟨h1, h2, h3, h4⟩ := key b0 h
  rw [decodeOutgoing, if_neg h1, if_neg h2, if_neg h3, if_pos h4]

/-- A byte 0 in `0x80` to `0x87` is a column write. -/
theorem decodeOutgoing_col (b0 d : Byte) (h : b0.extractLsb' 3 5 = 0x10) :
    decodeOutgoing b0 d = .ok (.wCol (b0.extractLsb' 0 3) d) := by
  have key : ∀ b : Byte, b.extractLsb' 3 5 = 0x10 → b ≠ Config.opbIntensity ∧
      b ≠ Config.opcLedOn ++ (0x0 : Nibble) ∧ b ≠ Config.opcLedOff ++ (0x0 : Nibble) ∧
      b.extractLsb' 3 5 ≠ Config.opcRow ++ (0x0 : BitVec 1) ∧
      b.extractLsb' 3 5 = Config.opcCol ++ (0x0 : BitVec 1) := by decide
  obtain ⟨h1, h2, h3, h4, h5⟩ := key b0 h
  rw [decodeOutgoing, if_neg h1, if_neg h2, if_neg h3, if_neg h4, if_pos h5]

theorem decodeOutgoing_intensity (d : Byte) :
    decodeOutgoing Config.opbIntensity d = .ok (.wIntensity d) := by
  simp [decodeOutgoing]

theorem decodeOutgoing_ledOn (b1 : Byte) :
    decodeOutgoing (opcodeByte Config.opcLedOn) b1 = decodeLedPayload .wLedOn b1 := by
  have h1 : opcodeByte Config.opcLedOn ≠ Config.opbIntensity := by decide
  have h2 : opcodeByte Config.opcLedOn = Config.opcLedOn ++ (0x0 : Nibble) := by decide
  rw [decodeOutgoing, if_neg h1, if_pos h2]

theorem decodeOutgoing_ledOff (b1 : Byte) :
    decodeOutgoing (opcodeByte Config.opcLedOff) b1 = decodeLedPayload .wLedOff b1 := by
  have h1 : opcodeByte Config.opcLedOff ≠ Config.opbIntensity := by decide
  have h2 : opcodeByte Config.opcLedOff ≠ Config.opcLedOn ++ (0x0 : Nibble) := by decide
  have h3 : opcodeByte Config.opcLedOff = Config.opcLedOff ++ (0x0 : Nibble) := by decide
  rw [decodeOutgoing, if_neg h1, if_neg h2, if_pos h3]

/-- The payload of an LED word is the two masked coordinates (R53), so the decoder takes it. -/
theorem decodeLedPayload_ledPayload (mk : BitVec 3 → BitVec 3 → Instr) (xr yr : Byte) :
    decodeLedPayload mk (ledPayload xr yr) =
      .ok (mk (xr.extractLsb' 0 3) (yr.extractLsb' 0 3)) := by
  have e : ∀ v : Byte, mask3 v = (v.extractLsb' 0 3).setWidth 8 := by decide
  have key : ∀ p q : BitVec 3,
      ((p.setWidth 8 <<< 4 ||| q.setWidth 8 : Byte).extractLsb' 7 1 = 0x0 ∧
        (p.setWidth 8 <<< 4 ||| q.setWidth 8 : Byte).extractLsb' 3 1 = 0x0) ∧
      (p.setWidth 8 <<< 4 ||| q.setWidth 8 : Byte).extractLsb' 4 3 = p ∧
      (p.setWidth 8 <<< 4 ||| q.setWidth 8 : Byte).extractLsb' 0 3 = q := by decide
  obtain ⟨h1, h2, h3⟩ := key (xr.extractLsb' 0 3) (yr.extractLsb' 0 3)
  rw [ledPayload, e, e, decodeLedPayload, if_pos h1, h2, h3]

/-- A line byte with the row opcode keeps the masked index. -/
theorem lineByte0_row (a : Byte) :
    (lineByte0 Config.opcRow a).extractLsb' 3 5 = 0 ∧
      (lineByte0 Config.opcRow a).extractLsb' 0 3 = a.extractLsb' 0 3 := by
  revert a
  decide

/-- A line byte with the column opcode keeps the masked index. -/
theorem lineByte0_col (a : Byte) :
    (lineByte0 Config.opcCol a).extractLsb' 3 5 = 0x10 ∧
      (lineByte0 Config.opcCol a).extractLsb' 0 3 = a.extractLsb' 0 3 := by
  revert a
  decide

/-- The opcode after relabel (R72). -/
theorem axisOpcode_cases (c : Cfg) (axis : Axis) :
    axisOpcode c axis =
      if (axis = .col) = (c.swap = true) then Config.opcRow else Config.opcCol := by
  obtain ⟨rr, cr, sw, ft, r, k⟩ := c
  cases axis <;> cases sw <;> simp [axisOpcode] <;> decide

/-- What the decoder makes of a line word (R84): a row or a column write by axis and swap flag, the masked
index, the payload. -/
theorem decodeOutgoing_lineWord (c : Cfg) (axis : Axis) (a d : Byte) :
    decodeOutgoing (lineWord c axis a d).1 (lineWord c axis a d).2 =
      .ok (if (axis = .col) = (c.swap = true) then
          .wRow ((axisAddr c axis a).extractLsb' 0 3) (axisPayload c axis d)
        else .wCol ((axisAddr c axis a).extractLsb' 0 3) (axisPayload c axis d)) := by
  simp only [lineWord, axisOpcode_cases]
  split
  · rw [decodeOutgoing_row _ _ (lineByte0_row _).1, (lineByte0_row _).2]
  · rw [decodeOutgoing_col _ _ (lineByte0_col _).1, (lineByte0_col _).2]

/-- What the decoder makes of an LED word (R82). -/
theorem decodeOutgoing_ledWord (c : Cfg) (x y : Byte) (on : Bool) :
    decodeOutgoing (ledWord c x y on).1 (ledWord c x y on).2 =
      .ok (if on then
          .wLedOn ((rotate c x y).1.extractLsb' 0 3) ((rotate c x y).2.extractLsb' 0 3)
        else .wLedOff ((rotate c x y).1.extractLsb' 0 3) ((rotate c x y).2.extractLsb' 0 3)) := by
  cases on
  · exact (decodeOutgoing_ledOff _).trans (decodeLedPayload_ledPayload _ _ _)
  · exact (decodeOutgoing_ledOn _).trans (decodeLedPayload_ledPayload _ _ _)

theorem outgoingAccepts_of_ok {b0 b1 : Byte} {i : Instr} (h : decodeOutgoing b0 b1 = .ok i) :
    outgoingAccepts b0 b1 = true := by
  simp [outgoingAccepts, h]

/-- Every word the encoder builds has one of the formats of R49 to R51: a line word. -/
theorem outgoingAccepts_lineWord (c : Cfg) (axis : Axis) (a d : Byte) :
    outgoingAccepts (lineWord c axis a d).1 (lineWord c axis a d).2 = true :=
  outgoingAccepts_of_ok (decodeOutgoing_lineWord c axis a d)

/-- An LED word. -/
theorem outgoingAccepts_ledWord (c : Cfg) (x y : Byte) (on : Bool) :
    outgoingAccepts (ledWord c x y on).1 (ledWord c x y on).2 = true :=
  outgoingAccepts_of_ok (decodeOutgoing_ledWord c x y on)

/-- A raw row word of CLEAR with an index below 8. -/
theorem outgoingAccepts_rawRow (i : Nat) (h : i < 8) :
    outgoingAccepts (BitVec.ofNat 8 i) 0x00 = true := by
  have key : ∀ j : Fin 8, outgoingAccepts (BitVec.ofNat 8 j.val) 0x00 = true := by decide
  exact key ⟨i, h⟩

end Sys2Proof.Machine
end

