-- ==== Sys2Proof/Laws/Exec.lean ====
section
/-! SUPPORT. What an instruction can do, said once for each: when `exec` answers a next state, which
state it is. -/

namespace Sys2Proof.Machine

/-- The words CLEAR emits for `n` rows (R78). -/
def clearWords (n : Nat) : List (Byte × Byte) := (List.range n).map fun i => (BitVec.ofNat 8 i, 0x00)

theorem exec_open {c : BitVec 12} {s : State} (h : s.phase = .fresh) (hl : (cfgOfImage c).Legal) :
    exec (.cmdOpen c) s = .next (if nextOpen s then
      respond statusOk 0 { (txOpen s).2 with cfg := cfgOfImage c, phase := .opened }
      else failWith statusTransportFailure (txOpen s).2) := by
  change execOpen c s = _
  rw [execOpen, if_pos h, if_pos hl]
  by_cases ho : nextOpen s <;> simp [ho]

theorem exec_close {s : State} (h : s.phase = .opened) :
    exec .cmdClose s =
      .next (respond (statusOfAnswer (nextClose s)) 0 { (txClose s).2 with phase := .closed }) := by
  change execClose s = _
  rw [execClose, if_pos h]
  rfl

theorem exec_evt {s : State} (h : s.phase = .opened) :
    exec .cmdEvt s =
      .next (eventOfAnswer (nextRead s) (recordRead (nextRead s) (drawRead s).2)) :=
  inOpen_opened h _

theorem exec_clear {st : Bool} {s : State} (h : s.phase = .opened) :
    exec (.cmdClear st) s = .next (epilogue { emitMany (clearWords s.cfg.rows.toNat) (prologue s) with
      idx := s.cfg.rows }) := by
  have hr := clearRounds_eq s.cfg.rows.toNat 0 { prologue s with idx := 0 } rfl
    (by have := s.cfg.rows.isLt; omega)
  refine (inOpen_opened h _).trans ?_
  rw [hr, emitMany_idx]
  simp [clearWords, List.range_eq_range']

theorem exec_frame {xo yo : Byte} {f : Bytes8} {s : State} (h : s.phase = .opened) :
    ∃ m : Memory, exec (.cmdFrame xo yo f) s = .next (epilogue
        { emitMany (frameWords s.cfg (frameBytes (frameSource Config.frameTransform s.cfg xo yo f)))
            (prologue s) with wb := m, idx := 8 }) ∧
      (∀ i, i < 8 → Memory.lookup m i =
        some ((frameBytes (frameSource Config.frameTransform s.cfg xo yo f)).getD i 0)) ∧
      (Memory.wf s.wb = true → Memory.wf m = true) := by
  obtain ⟨m, h1, h2, h3⟩ := frameBody_spec Config.frameTransform xo yo f s
  refine ⟨m, (inOpen_opened h _).trans ?_, h2, h3⟩
  rw [h1]
  rfl

/-- What `exec i s = .next t` says, instruction by instruction. -/
def Ends (s t : State) : Instr → Prop
  | .cmdOpen c => s.phase = .fresh ∧ (cfgOfImage c).Legal ∧ t = if nextOpen s then
      respond statusOk 0 { (txOpen s).2 with cfg := cfgOfImage c, phase := .opened }
      else failWith statusTransportFailure (txOpen s).2
  | .cmdClose => s.phase = .opened ∧
      t = respond (statusOfAnswer (nextClose s)) 0 { (txClose s).2 with phase := .closed }
  | .cmdEvt => s.phase = .opened ∧
      t = eventOfAnswer (nextRead s) (recordRead (nextRead s) (drawRead s).2)
  | .cmdClear _ => s.phase = .opened ∧
      t = epilogue { emitMany (clearWords s.cfg.rows.toNat) (prologue s) with idx := s.cfg.rows }
  | .cmdIntensity v => s.phase = .opened ∧ t = emitOne (Config.opbIntensity, v) s
  | .cmdMode _ => s.phase = .opened ∧ t = epilogue (prologue s)
  | .cmdLed x y on => s.phase = .opened ∧ t = emitOne (ledWord s.cfg x y on) s
  | .cmdRow a d => s.phase = .opened ∧ t = emitOne (lineWord s.cfg .row a d) s
  | .cmdCol a d => s.phase = .opened ∧ t = emitOne (lineWord s.cfg .col a d) s
  | .cmdFrame xo yo f => s.phase = .opened ∧ ∃ m : Memory, t = epilogue
        { emitMany (frameWords s.cfg (frameBytes (frameSource Config.frameTransform s.cfg xo yo f)))
            (prologue s) with wb := m, idx := 8 } ∧
      (∀ i, i < 8 → Memory.lookup m i =
        some ((frameBytes (frameSource Config.frameTransform s.cfg xo yo f)).getD i 0)) ∧
      (Memory.wf s.wb = true → Memory.wf m = true)
  | .unrecognizedAB _ => t = failWith statusUnsupported s
  | .unrecognizedCF _ => t = failWith statusUnsupported s
  | .wLedOn xr yr => s.phase = .opened ∧
      t = emit (opcodeByte Config.opcLedOn, ledPayload (xr.setWidth 8) (yr.setWidth 8)) s
  | .wLedOff xr yr => s.phase = .opened ∧
      t = emit (opcodeByte Config.opcLedOff, ledPayload (xr.setWidth 8) (yr.setWidth 8)) s
  | .wRow a d => s.phase = .opened ∧ t = emit (lineByte0 Config.opcRow (a.setWidth 8), d) s
  | .wCol a d => s.phase = .opened ∧ t = emit (lineByte0 Config.opcCol (a.setWidth 8), d) s
  | .wIntensity v => s.phase = .opened ∧ t = emit (Config.opbIntensity, v) s
  | .eDown low xd yd => s.phase = .opened ∧
      t = buttonWord .buttonDown (Config.famDown ++ low) xd yd s
  | .eUp low xd yd => s.phase = .opened ∧ t = buttonWord .buttonUp (Config.famUp ++ low) xd yd s
  | .eUnknown23 f low p => s.phase = .opened ∧ t = droppedWord ((0x1 : BitVec 3) ++ f ++ low) p s
  | .eUnknown47 f low p => s.phase = .opened ∧ t = droppedWord ((0x1 : BitVec 2) ++ f ++ low) p s
  | .eUnknown8F f low p => s.phase = .opened ∧ t = droppedWord ((0x1 : BitVec 1) ++ f ++ low) p s

theorem ends_of_open {c : BitVec 12} {s t : State} (h : exec (.cmdOpen c) s = .next t) :
    Ends s t (.cmdOpen c) := by
  change execOpen c s = _ at h
  by_cases hp : s.phase = .fresh
  · by_cases hl : (cfgOfImage c).Legal
    · have he : execOpen c s = _ := exec_open hp hl
      rw [he] at h
      cases h
      exact ⟨hp, hl, rfl⟩
    · rw [execOpen, if_pos hp, if_neg hl] at h
      cases h
  · rw [execOpen, if_neg hp] at h
    cases h

theorem ends_of_close {s t : State} (h : exec .cmdClose s = .next t) : Ends s t .cmdClose := by
  change execClose s = _ at h
  by_cases hp : s.phase = .opened
  · have he : execClose s = _ := exec_close hp
    rw [he] at h
    cases h
    exact ⟨hp, rfl⟩
  · rw [execClose, if_neg hp] at h
    cases h

theorem ends_of_inOpen {s t u : State} (h : inOpen s (.next u) = .next t) :
    s.phase = .opened ∧ t = u :=
  ⟨(inOpen_next h).1, (Host.Outcome.next.inj (inOpen_next h).2).symm⟩

theorem ends_of_word {s t u : State} (h : wordInOpen s u = .next t) : s.phase = .opened ∧ t = u :=
  ⟨(wordInOpen_next h).1, (wordInOpen_next h).2.symm⟩

/-- The inversion of `exec`: everything an instruction that answers a next state can have done. -/
theorem exec_ends {i : Instr} {s t : State} (h : exec i s = .next t) : Ends s t i := by
  cases i with
  | cmdOpen => exact ends_of_open h
  | cmdClose => exact ends_of_close h
  | cmdEvt => exact ends_of_inOpen h
  | cmdClear =>
    have ho := (inOpen_next h).1
    rw [exec_clear ho] at h
    cases h
    exact ⟨ho, rfl⟩
  | cmdIntensity => exact ends_of_inOpen h
  | cmdMode => exact ends_of_inOpen h
  | cmdLed => exact ends_of_inOpen h
  | cmdRow => exact ends_of_inOpen h
  | cmdCol => exact ends_of_inOpen h
  | cmdFrame xo yo f =>
    have ho := (inOpen_next h).1
    obtain ⟨m, h1, h2, h3⟩ := exec_frame (xo := xo) (yo := yo) (f := f) ho
    rw [h1] at h
    cases h
    exact ⟨ho, m, rfl, h2, h3⟩
  | unrecognizedAB => exact (Host.Outcome.next.inj h).symm
  | unrecognizedCF => exact (Host.Outcome.next.inj h).symm
  | wLedOn => exact ends_of_word h
  | wLedOff => exact ends_of_word h
  | wRow => exact ends_of_word h
  | wCol => exact ends_of_word h
  | wIntensity => exact ends_of_word h
  | eDown => exact ends_of_word h
  | eUp => exact ends_of_word h
  | eUnknown23 => exact ends_of_word h
  | eUnknown47 => exact ends_of_word h
  | eUnknown8F => exact ends_of_word h

end Sys2Proof.Machine
end

