-- ==== Sys2Proof/Laws/PerInstr.lean ====
section
/-! SUPPORT. A law for every instruction: its encoding lies in its row of spec/opcode_table.json, by the
row's own match and mask, numbered as the table numbers the bits. -/

namespace Sys2Proof.Laws.TableRow

/-- The row of an instruction: width in bits, match, mask, as the table prints them. -/
def row : Instr → Nat × Nat × Nat
  | .cmdOpen _ => (4, 0x0, 0xF)
  | .cmdClose => (4, 0x1, 0xF)
  | .cmdEvt => (4, 0x2, 0xF)
  | .cmdClear _ => (4, 0x3, 0xF)
  | .cmdIntensity _ => (4, 0x4, 0xF)
  | .cmdMode _ => (4, 0x5, 0xF)
  | .cmdLed _ _ _ => (4, 0x6, 0xF)
  | .cmdRow _ _ => (4, 0x7, 0xF)
  | .cmdCol _ _ => (4, 0x8, 0xF)
  | .cmdFrame _ _ _ => (4, 0x9, 0xF)
  | .unrecognizedAB _ => (4, 0xA, 0xE)
  | .unrecognizedCF _ => (4, 0xC, 0xC)
  | .wLedOn _ _ => (16, 0x2000, 0xFF88)
  | .wLedOff _ _ => (16, 0x1000, 0xFF88)
  | .wRow _ _ => (16, 0x0000, 0xF800)
  | .wCol _ _ => (16, 0x8000, 0xF800)
  | .wIntensity _ => (16, 0x0A00, 0xFF00)
  | .eDown _ _ _ => (16, 0x0000, 0xF000)
  | .eUp _ _ _ => (16, 0x1000, 0xF000)
  | .eUnknown23 _ _ _ => (16, 0x2000, 0xE000)
  | .eUnknown47 _ _ _ => (16, 0x4000, 0xC000)
  | .eUnknown8F _ _ _ => (16, 0x8000, 0x8000)

/-- A unit as a number of the table: the code `OP`, or byte0 * 256 + byte1 (R7). -/
def number : EncUnit → Nat
  | .command l => l.op.toNat
  | .outgoing b0 b1 => (b0 ++ b1).toNat
  | .incoming b0 b1 => (b0 ++ b1).toNat

/-- The instruction's encoding has the bits its row fixes, and fits the row's width. -/
def Statement (i : Instr) : Prop :=
  number (encode i) &&& (row i).2.2 = (row i).2.1 ∧ number (encode i) < 2 ^ (row i).1

/-- A word of two bytes lies in a row whose mask leaves byte 1 free when byte 0 does. -/
theorem word_in_row (b0 b1 m k : Byte) (h : b0 &&& m = k) :
    (b0 ++ b1).toNat &&& m.toNat * 256 = k.toNat * 256 ∧ (b0 ++ b1).toNat < 2 ^ 16 := by
  refine ⟨?_, (b0 ++ b1).isLt⟩
  have e : (b0 ++ b1) &&& (m ++ (0 : Byte)) = k ++ (0 : Byte) := by
    apply BitVec.eq_of_getLsbD_eq
    intro i hi
    have hk := congrArg (fun v => v.getLsbD (i - 8)) h
    simp only [BitVec.getLsbD_and] at hk
    simp only [BitVec.getLsbD_and, BitVec.getLsbD_append, BitVec.ofNat_eq_ofNat,
      BitVec.getLsbD_zero]
    by_cases h8 : i < 8
    · simp [h8]
    · simpa [h8] using hk
  have e' := congrArg BitVec.toNat e
  have up (v : Byte) : (v ++ (0 : Byte)).toNat = v.toNat * 256 := by
    rw [BitVec.toNat_append, Nat.shiftLeft_eq]
    simp
  rwa [BitVec.toNat_and, up, up] at e'

/-- A command's code lies in a row whose mask it meets. -/
theorem command_in_row (l : Latches) (op : BitVec 4) {m k : Nat} (hop : l.op = op)
    (h : op.toNat &&& m = k) : l.op.toNat &&& m = k ∧ l.op.toNat < 2 ^ 4 := by
  subst hop
  exact ⟨h, l.op.isLt⟩

theorem cmdOpen (c : BitVec 12) : Statement (.cmdOpen c) :=
  command_in_row (m := 0xF) (k := 0x0) _ 0x0 rfl (by decide)

theorem cmdClose : Statement .cmdClose :=
  command_in_row (m := 0xF) (k := 0x1) _ 0x1 rfl (by decide)

theorem cmdEvt : Statement .cmdEvt :=
  command_in_row (m := 0xF) (k := 0x2) _ 0x2 rfl (by decide)

theorem cmdClear (st : Bool) : Statement (.cmdClear st) :=
  command_in_row (m := 0xF) (k := 0x3) _ 0x3 rfl (by decide)

theorem cmdIntensity (v : Byte) : Statement (.cmdIntensity v) :=
  command_in_row (m := 0xF) (k := 0x4) _ 0x4 rfl (by decide)

theorem cmdMode (v : Byte) : Statement (.cmdMode v) :=
  command_in_row (m := 0xF) (k := 0x5) _ 0x5 rfl (by decide)

theorem cmdLed (x y : Byte) (on : Bool) : Statement (.cmdLed x y on) :=
  command_in_row (m := 0xF) (k := 0x6) _ 0x6 rfl (by decide)

theorem cmdRow (a d : Byte) : Statement (.cmdRow a d) :=
  command_in_row (m := 0xF) (k := 0x7) _ 0x7 rfl (by decide)

theorem cmdCol (a d : Byte) : Statement (.cmdCol a d) :=
  command_in_row (m := 0xF) (k := 0x8) _ 0x8 rfl (by decide)

theorem cmdFrame (xo yo : Byte) (f : Bytes8) : Statement (.cmdFrame xo yo f) :=
  command_in_row (m := 0xF) (k := 0x9) _ 0x9 rfl (by decide)

theorem unrecognizedAB (l : BitVec 1) : Statement (.unrecognizedAB l) :=
  command_in_row _ _ rfl (by revert l; decide)

theorem unrecognizedCF (l : BitVec 2) : Statement (.unrecognizedCF l) :=
  command_in_row _ _ rfl (by revert l; decide)

theorem wLedOn (x y : BitVec 3) : Statement (.wLedOn x y) := by
  unfold Statement
  revert x y
  decide

theorem wLedOff (x y : BitVec 3) : Statement (.wLedOff x y) := by
  unfold Statement
  revert x y
  decide

theorem wRow (a : BitVec 3) (d : Byte) : Statement (.wRow a d) := by
  have h : ∀ a : BitVec 3, (Config.opcRow ++ (0x0 : BitVec 1) ++ a) &&& 0xF8#8 = 0x00 := by decide
  exact word_in_row _ d _ _ (h a)

theorem wCol (a : BitVec 3) (d : Byte) : Statement (.wCol a d) := by
  have h : ∀ a : BitVec 3, (Config.opcCol ++ (0x0 : BitVec 1) ++ a) &&& 0xF8#8 = 0x80 := by decide
  exact word_in_row _ d _ _ (h a)

theorem wIntensity (v : Byte) : Statement (.wIntensity v) := by
  exact word_in_row _ v 0xFF 0x0A (by decide)

theorem eDown (l x y : Nibble) : Statement (.eDown l x y) := by
  have h : ∀ l : Nibble, (Config.famDown ++ l) &&& 0xF0#8 = 0x00 := by decide
  exact word_in_row _ _ _ _ (h l)

theorem eUp (l x y : Nibble) : Statement (.eUp l x y) := by
  have h : ∀ l : Nibble, (Config.famUp ++ l) &&& 0xF0#8 = 0x10 := by decide
  exact word_in_row _ _ _ _ (h l)

theorem eUnknown23 (f : BitVec 1) (l : Nibble) (p : Byte) : Statement (.eUnknown23 f l p) := by
  have h : ∀ (f : BitVec 1) (l : Nibble), ((0x1 : BitVec 3) ++ f ++ l) &&& 0xE0#8 = 0x20 := by decide
  exact word_in_row _ p _ _ (h f l)

theorem eUnknown47 (f : BitVec 2) (l : Nibble) (p : Byte) : Statement (.eUnknown47 f l p) := by
  have h : ∀ (f : BitVec 2) (l : Nibble), ((0x1 : BitVec 2) ++ f ++ l) &&& 0xC0#8 = 0x40 := by decide
  exact word_in_row _ p _ _ (h f l)

theorem eUnknown8F (f : BitVec 3) (l : Nibble) (p : Byte) : Statement (.eUnknown8F f l p) := by
  have h : ∀ (f : BitVec 3) (l : Nibble), ((0x1 : BitVec 1) ++ f ++ l) &&& 0x80#8 = 0x80 := by decide
  exact word_in_row _ p _ _ (h f l)

end Sys2Proof.Laws.TableRow
end

