-- ==== Sys2Proof/Tests/Slice0.lean ====
section
/-! SUPPORT. Tests of the model. Expected values come from the tables of spec/30_encoding.md and the vectors
of spec/95_test_vectors.md, named at each test. The last part shows, for each statement that has
hypotheses, a concrete state and operands that meet them together. -/

namespace Sys2Proof.Tests

open Sys2Proof.Machine

/-! ### Helpers -/

/-- An 8 by 8 configuration with these flags and no frame transform. -/
def grid (rowRev colRev swap : Bool) : Cfg := ⟨rowRev, colRev, swap, false, 8, 8⟩

/-- A transport that gives these answers. -/
def transport (opens closes : List Bool) (writes : List (Fin 3)) (reads : List ReadAnswer) : Transport :=
  ⟨opens, closes, writes, reads, 0, []⟩

/-- A machine in this phase with this configuration and transport, otherwise as after reset. -/
def machine (p : Phase) (c : Cfg) (t : Transport) : State :=
  { State.reset with phase := p, cfg := c, tr := t }

/-- An open session whose next writes are answered so. -/
def session (c : Cfg) (writes : List (Fin 3)) : State := machine .opened c (transport [] [] writes [])

/-- An open session whose next read is answered so. -/
def polling (c : Cfg) (a : ReadAnswer) : State := machine .opened c (transport [] [] [] [a])

/-- The next state, if there is one. -/
def next? (r : Result) : Option State :=
  match r with
  | .next t => some t
  | .fault _ => none
  | .refused _ => none

/-- The refusal, if there is one. -/
def refusal? (r : Result) : Option Refusal :=
  match r with
  | .next _ => none
  | .fault _ => none
  | .refused e => some e

/-- What a command leaves: the words offered, `STATUS`, `COUNT`. -/
def wire (r : Result) : Option (List (Byte × Byte) × BitVec 2 × Byte) :=
  (next? r).map fun t => (offeredWords t.tr.calls, t.resp.status, t.resp.count)

/-- What EVT leaves: `EV_VALID`, `EV_KIND`, `EV_X`, `EV_Y`. -/
def event (r : Result) : Option (Bool × EvKind × Byte × Byte) :=
  (next? r).map fun t => (t.resp.evValid, t.resp.evKind, t.resp.evX, t.resp.evY)

/-- `PHASE`, `CFG` and `STATUS`. -/
def status (r : Result) : Option (Phase × Cfg × BitVec 2) :=
  (next? r).map fun t => (t.phase, t.cfg, t.resp.status)

/-- What is decoded, if anything is. -/
def read (u : EncUnit) : Option Instr :=
  match decode u with
  | .ok i => some i
  | .error _ => none

/-- A command with every latch but `OP` set to a value that is not zero, so that a latch read in place of
another shows. -/
def command (op : BitVec 4) : EncUnit :=
  .command ⟨op, 0x11, 0x22, true, 0x33, 0x44, 0x55, 0x66, true, 0x77, 0x88, ⟨1, 2, 3, 4, 5, 6, 7, 8⟩, 0x885⟩

/-! ### Well-formedness: ROWS and COLS are 1 to 8 (R16, R98) -/

theorem test_wf_refuses_rows_0 : (Instr.cmdOpen 0x800).wf = false := by decide
theorem test_wf_refuses_rows_9 : (Instr.cmdOpen 0x890).wf = false := by decide
theorem test_wf_refuses_cols_0 : (Instr.cmdOpen 0x080).wf = false := by decide
theorem test_wf_refuses_cols_9 : (Instr.cmdOpen 0x980).wf = false := by decide
theorem test_wf_takes_the_bounds :
    (Instr.cmdOpen 0x810).wf = true ∧ (Instr.cmdOpen 0x18F).wf = true := by decide

/-! ### Decoding: the codes of R46, every latch at a value of its own -/

theorem test_decode_open : read (command 0x0) = some (.cmdOpen 0x885) := by decide
theorem test_decode_close : read (command 0x1) = some .cmdClose := by decide
theorem test_decode_evt : read (command 0x2) = some .cmdEvt := by decide
theorem test_decode_clear : read (command 0x3) = some (.cmdClear true) := by decide
theorem test_decode_intensity : read (command 0x4) = some (.cmdIntensity 0x55) := by decide
theorem test_decode_mode : read (command 0x5) = some (.cmdMode 0x66) := by decide
theorem test_decode_led : read (command 0x6) = some (.cmdLed 0x11 0x22 true) := by decide
theorem test_decode_row : read (command 0x7) = some (.cmdRow 0x33 0x44) := by decide
theorem test_decode_col : read (command 0x8) = some (.cmdCol 0x33 0x44) := by decide
theorem test_decode_frame :
    read (command 0x9) = some (.cmdFrame 0x77 0x88 ⟨1, 2, 3, 4, 5, 6, 7, 8⟩) := by decide
theorem test_decode_unrecognized_ab :
    read (command 0xA) = some (.unrecognizedAB 0) ∧ read (command 0xB) = some (.unrecognizedAB 1) := by
  decide
theorem test_decode_unrecognized_cf :
    read (command 0xC) = some (.unrecognizedCF 0) ∧ read (command 0xF) = some (.unrecognizedCF 3) := by
  decide

/-! Outgoing words: format WL `0010 0000 | 0 xxx 0 yyy` (R49), WA `0000 0 aaa`, `1000 0 aaa` (R50), WI
`0000 1010` (R51). -/

theorem test_decode_w_led_on :
    read (.outgoing 0b00100000 0b01100101) = some (.wLedOn 0b110 0b101) := by decide
theorem test_decode_w_led_off :
    read (.outgoing 0b00010000 0b00110100) = some (.wLedOff 0b011 0b100) := by decide
theorem test_decode_w_row :
    read (.outgoing 0b00000010 0b10100101) = some (.wRow 0b010 0b10100101) := by decide
theorem test_decode_w_col :
    read (.outgoing 0b10000101 0b00001111) = some (.wCol 0b101 0b00001111) := by decide
theorem test_decode_w_intensity :
    read (.outgoing 0b00001010 0b00001111) = some (.wIntensity 0b00001111) := by decide
/-- R56, R58: an address nibble in an LED word, bit 3 of a line write, bits 7 and 3 of an LED payload. -/
theorem test_decode_outgoing_reserved :
    read (.outgoing 0x21 0x34) = none ∧ read (.outgoing 0x08 0x00) = none ∧
      read (.outgoing 0x88 0x00) = none ∧ read (.outgoing 0x20 0x80) = none ∧
      read (.outgoing 0x10 0x08) = none ∧ read (.outgoing 0x0B 0x00) = none := by decide

/-! Incoming words: format WE `ffff llll | xxxx yyyy` (R52); the tolerated families (R60). -/

theorem test_decode_e_down :
    read (.incoming 0b00001111 0b01110100) = some (.eDown 0b1111 0b0111 0b0100) := by decide
theorem test_decode_e_up :
    read (.incoming 0b00011010 0b01100101) = some (.eUp 0b1010 0b0110 0b0101) := by decide
theorem test_decode_e_unknown_23 :
    read (.incoming 0b00110001 0x34) = some (.eUnknown23 0b1 0b0001 0x34) := by decide
theorem test_decode_e_unknown_47 :
    read (.incoming 0b01100001 0x34) = some (.eUnknown47 0b10 0b0001 0x34) := by decide
theorem test_decode_e_unknown_8f :
    read (.incoming 0b11100001 0x34) = some (.eUnknown8F 0b110 0b0001 0x34) := by decide

/-- The table's numbering: byte0 * 256 + byte1 (R7), the code `OP` in 4 bits. -/
theorem test_decode_table_word :
    decodeTableWord 16 0x2034 = some (.wLedOn 3 4) ∧ decodeTableWord 4 0x2 = some .cmdEvt ∧
      decodeTableWord 16 0x1A65 = some (.eUp 0xA 6 5) ∧ decodeTableWord 4 0x10 = none := by decide

/-! ### The transform unit (section 2.1, 2.2, R70) -/

/-- 90°: `mx(2) = 5`, `my(6) = 6`, exchanged (program P2). -/
theorem test_rotate_90 : rotate (grid true false true) 2 6 = (6, 5) := by decide
/-- `ROWS = 8`, `COL_REV = 1`: `AxisAddr(ROW, 0) = 7` (R70). -/
theorem test_axis_addr : axisAddr (grid false true false) .row 0 = 7 := by decide

/-! ### Session (section 2.8) -/

theorem test_open_ok :
    status (exec (.cmdOpen 0x643) (machine .fresh Cfg.reset (transport [true] [] [] []))) =
      some (.opened, ⟨true, true, false, false, 4, 6⟩, 0) := by decide
theorem test_open_fail :
    status (exec (.cmdOpen 0x885) (machine .fresh Cfg.reset (transport [false] [] [] []))) =
      some (.fresh, Cfg.reset, 1) := by decide
theorem test_close_fail :
    status (exec .cmdClose (machine .opened (grid false false false) (transport [] [false] [] []))) =
      some (.closed, grid false false false, 1) := by decide
theorem test_unrecognized_ab :
    wire (exec (.unrecognizedAB 0) State.reset) = some ([], 2, 0) := by decide
theorem test_unrecognized_cf :
    wire (exec (.unrecognizedCF 3) (session (grid false false false) [])) = some ([], 2, 0) := by decide
/-- U2, U3, U4. -/
theorem test_refusals :
    refusal? (exec (.cmdLed 0 0 true) State.reset) = some .commandOutsideOpen ∧
      refusal? (exec (.cmdOpen 0x880) (session (grid false false false) [])) = some .openOutsideNew ∧
      refusal? (exec .cmdClose State.reset) = some .closeOutsideOpen ∧
      refusal? (exec (.cmdOpen 0x890) State.reset) = some .extentOutOfRange := by decide

/-! ### Encoder commands (sections 2.3 to 2.8) -/

theorem test_led_90 :
    wire (exec (.cmdLed 2 6 true) (session (grid true false true) [2])) =
      some ([(0x20, 0x65)], 0, 2) := by decide
/-- 180°: the masked pair, and the LED-off opcode. -/
theorem test_led_off_180 :
    wire (exec (.cmdLed 15 15 false) (session (grid true true false) [2])) =
      some ([(0x10, 0x00)], 0, 2) := by decide
theorem test_row_90 :
    wire (exec (.cmdRow 2 0x01) (session (grid true false true) [2])) =
      some ([(0x82, 0x80)], 0, 2) := by decide
/-- `ROWS = 4`, `COLS = 6`, 270°: the index is mirrored over `ROWS`. -/
theorem test_row_small_270 :
    wire (exec (.cmdRow 0 0x03) (session ⟨false, true, true, false, 4, 6⟩ [2])) =
      some ([(0x83, 0x03)], 0, 2) := by decide
theorem test_col_90 :
    wire (exec (.cmdCol 5 0x0F) (session (grid true false true) [2])) =
      some ([(0x02, 0x0F)], 0, 2) := by decide
/-- `ROWS = 4`, `COLS = 6`, 180°: mirrored over `COLS`, reversed by `COL_REV`. -/
theorem test_col_small_180 :
    wire (exec (.cmdCol 0 0x03) (session ⟨true, true, false, false, 4, 6⟩ [2])) =
      some ([(0x85, 0xC0)], 0, 2) := by decide
/-- Program P5, command 3: every word is offered, 13 bytes are accepted. -/
theorem test_clear_failures :
    wire (exec (.cmdClear false) (session (grid false false false) [2, 2, 1, 2, 0, 2, 2, 2])) =
      some ([(0, 0), (1, 0), (2, 0), (3, 0), (4, 0), (5, 0), (6, 0), (7, 0)], 1, 13) := by decide
/-- Section 2.6: all flags set, `ROWS = 4`. -/
theorem test_clear_is_raw :
    wire (exec (.cmdClear true) (session ⟨true, true, true, false, 4, 8⟩ [2, 2, 2, 2])) =
      some ([(0, 0), (1, 0), (2, 0), (3, 0)], 0, 8) := by decide
theorem test_intensity_unchecked :
    wire (exec (.cmdIntensity 0xFF) (session (grid true true true) [2])) =
      some ([(0x0A, 0xFF)], 0, 2) := by decide
/-- Program P5, command 6. -/
theorem test_intensity_failure :
    wire (exec (.cmdIntensity 200) (session (grid false false false) [0])) =
      some ([(0x0A, 0xC8)], 1, 0) := by decide
theorem test_mode : wire (exec (.cmdMode 1) (session (grid false false false) [])) = some ([], 0, 0) := by
  decide
/-- Program P3, command 2. -/
theorem test_frame_180 :
    wire (exec (.cmdFrame 0 0 ⟨0xFF, 0x81, 0x81, 0x81, 0x81, 0x81, 0x81, 0x0F⟩)
      (session (grid true true false) [2, 2, 2, 2, 2, 2, 2, 2])) =
      some ([(7, 0xFF), (6, 0x81), (5, 0x81), (4, 0x81), (3, 0x81), (2, 0x81), (1, 0x81), (0, 0xF0)],
        0, 16) := by decide

/-- Example (a) of section 2.5: `FT(xo, yo, f)[i] = f[(i + yo) mod 8]`, at `yo = 1`. -/
def shiftOne (_xo _yo : Byte) (f : Bytes8) : Bytes8 :=
  ⟨f.b1, f.b2, f.b3, f.b4, f.b5, f.b6, f.b7, f.b0⟩

/-- Program P6, command 3: `ROWS = 4`, `COL_REV = 1`, `FT_EN = 1`; the words and the buffer after. -/
theorem test_frame_body_transformed :
    ((frameBody shiftOne 0 1 ⟨0x01, 0x02, 0x04, 0x08, 0x10, 0x20, 0x40, 0x80⟩
      (session ⟨false, true, false, true, 4, 8⟩ [2, 2, 2, 2, 2, 2, 2, 2])).toOption.map
        fun t => (offeredWords t.tr.calls, t.wb.map Prod.snd)) =
      some ([(3, 0x02), (2, 0x04), (1, 0x08), (0, 0x10), (7, 0x20), (6, 0x40), (5, 0x80), (4, 0x01)],
        [0x02, 0x04, 0x08, 0x10, 0x20, 0x40, 0x80, 0x01]) := by decide

/-! ### Events (section 2.7) -/

/-- The source's own example, S8. -/
theorem test_evt_down :
    event (exec .cmdEvt (polling (grid false false false) (.word 0x00 0x34))) =
      some (true, .buttonDown, 3, 4) := by decide
/-- Anti-transpose, device coordinates outside the grid wrap modulo 256. -/
theorem test_evt_wraps :
    event (exec .cmdEvt (polling (grid true true true) (.word 0x00 0x9C))) =
      some (true, .buttonDown, 251, 254) := by decide
theorem test_e_down_90 :
    event (exec (.eDown 0xF 7 7) (session (grid true false true) [])) =
      some (true, .buttonDown, 0, 7) := by decide
theorem test_e_up_270 :
    event (exec (.eUp 0xA 6 5) (session (grid false true true) [])) =
      some (true, .buttonUp, 5, 1) := by decide
theorem test_e_unknown_23 :
    (next? (exec (.eUnknown23 0 0 0x34) (session (grid false false false) []))).map
      (fun t => (t.resp.evValid, t.resp.status)) = some (false, 0) := by decide
theorem test_e_unknown_47 :
    (next? (exec (.eUnknown47 0 0 0x34) (session (grid false false false) []))).map
      (fun t => (t.resp.evValid, t.resp.status)) = some (false, 0) := by decide
theorem test_e_unknown_8f :
    (next? (exec (.eUnknown8F 7 0 0x00) (session (grid false false false) []))).map
      (fun t => (t.resp.evValid, t.resp.status)) = some (false, 0) := by decide

/-! ### Wire words as instructions (R49 to R51, R77) -/

/-- The words offered, `CNT`, `TXF`. -/
def offered (r : Result) : Option (List (Byte × Byte) × Byte × Bool) :=
  (next? r).map fun t => (offeredWords t.tr.calls, t.cnt, t.txf)

theorem test_w_led_on :
    offered (exec (.wLedOn 3 4) (session (grid true true true) [2])) =
      some ([(0x20, 0x34)], 2, false) := by decide
theorem test_w_led_off :
    offered (exec (.wLedOff 6 5) (session (grid true true true) [1])) =
      some ([(0x10, 0x65)], 1, true) := by decide
theorem test_w_row :
    offered (exec (.wRow 2 0xA5) (session (grid true true true) [2])) =
      some ([(0x02, 0xA5)], 2, false) := by decide
theorem test_w_col :
    offered (exec (.wCol 5 0x0F) (session (grid true true true) [0])) =
      some ([(0x85, 0x0F)], 0, true) := by decide
theorem test_w_intensity :
    offered (exec (.wIntensity 0x0F) (session (grid true true true) [2])) =
      some ([(0x0A, 0x0F)], 2, false) := by decide

/-! ### The step -/

/-- Program P1, command 1, from the reset state: presented, decoded, run. -/
theorem test_step_open :
    status (step { State.reset with
      host := [.present (.command { Latches.zero with op := 0x0, cfgin := 0x880 })]
      tr := transport [true] [] [] [] }) =
      some (.opened, grid false false false, 0) := by decide
/-- R122: reset in phase `Done` leads to `New`, and the buffer has no value. -/
theorem test_step_reset :
    (next? (step { machine .closed (grid true true true) Transport.initial with
      wb := [(0, 7)], host := [.reset] })).map (fun t => (t.phase, t.wb)) = some (.fresh, []) := by decide
/-- The word that `withFetchWord` presents is the one the next step runs. -/
theorem test_step_fetch_word :
    event (step ((polling (grid false false false) (.word 0x10 0x00)).withFetchWord 4 0x2)) =
      some (true, .buttonUp, 0, 0) := by decide

/-! ### Witnesses: the hypotheses of each statement, met together

One theorem for each statement that has hypotheses, named after it; a clause with a range has its bounds. -/

/-- An open session on the smallest grid, all flags set, and on the largest. -/
def small : State := session ⟨true, true, true, false, 1, 1⟩ []
def large : State := session (grid false false false) []

/-- The host presents this next. -/
def presenting (s : State) (u : EncUnit) : State := { s with host := [.present u] }

theorem witness_ResetLeavesPhaseNewAndCallsNothing :
    ∃ (s : State) (rest : List HostItem), s.host = .reset :: rest ∧ s.phase = .closed :=
  ⟨{ machine .closed (grid true true true) Transport.initial with host := [.reset] }, _, rfl, rfl⟩

theorem witness_StepRunsTheDecodedInstruction :
    decode (command 0x6) = .ok (.cmdLed 0x11 0x22 true) ∧
      decode (.outgoing 0x20 0x34) = .ok (.wLedOn 3 4) ∧
      decode (.incoming 0x1A 0x65) = .ok (.eUp 0xA 6 5) ∧
      ∀ u, (presenting large u).host = .present u :: [] :=
  ⟨rfl, rfl, rfl, fun _ => rfl⟩

theorem witness_StepWaitsForTheHost :
    large.host = [] ∧ (presenting large (.outgoing 0x08 0)).host = .present (.outgoing 0x08 0) :: [] ∧
      decode (.outgoing 0x08 0) = .error (.reservedByte0 0x08) ∧
      decode (.outgoing 0x20 0x80) = .error (.reservedPayloadBit 0x80) :=
  ⟨rfl, rfl, rfl, rfl⟩

theorem witness_EncodeAfterDecodeIsTheWord :
    decode (.outgoing 0x87 0xFF) = .ok (.wCol 7 0xFF) ∧
      decode (.incoming 0xFF 0xFF) = .ok (.eUnknown8F 7 0xF 0xFF) := ⟨rfl, rfl⟩

theorem witness_OutgoingWordsAreTheTableRows :
    outgoingAccepts 0x00 0x00 = true ∧ outgoingAccepts 0x87 0xFF = true := by decide

theorem witness_ByteReversalReversesEveryBit : (0 : Nat) < 8 ∧ (7 : Nat) < 8 := by decide

theorem witness_MirrorsAreInvolutionsInRange :
    (⟨true, true, true, false, 1, 1⟩ : Cfg).Legal ∧ (grid true true true).Legal ∧
      (0 : Byte).toNat < (1 : BitVec 4).toNat ∧ (7 : Byte).toNat < (8 : BitVec 4).toNat ∧
      (grid true true true).rowRev = true ∧ (grid false false false).colRev = false := by decide

theorem witness_RotateAndUnrotateAreInverse :
    (⟨false, false, false, false, 1, 8⟩ : Cfg).Legal ∧ (⟨true, true, true, false, 1, 8⟩ : Cfg).Legal ∧
      (7 : Byte).toNat < (8 : BitVec 4).toNat ∧ (0 : Byte).toNat < (1 : BitVec 4).toNat ∧
      (grid true true true).swap = true ∧ (grid true true false).swap = false := by decide

theorem witness_PayloadReversedByTheCommandAxisFlag :
    (grid true false true).rowRev = true ∧ (grid true false true).colRev = false := by decide

theorem witness_SwapTogglesTheLineOpcode :
    (grid false false false).swap = false ∧ (grid false false true).swap = true := by decide

theorem witness_LedEmitsTheRotatedPair :
    small.phase = .opened ∧ large.phase = .opened ∧ large.cfg = ⟨false, false, false, false, 8, 8⟩ :=
  ⟨rfl, rfl, rfl⟩

theorem witness_RowEmitsItsLineWord : small.phase = .opened ∧ large.phase = .opened := ⟨rfl, rfl⟩
theorem witness_ColEmitsItsLineWord : small.phase = .opened ∧ large.phase = .opened := ⟨rfl, rfl⟩
theorem witness_IntensityEmitsTheLevelUnchecked : small.phase = .opened := rfl
theorem witness_ModeIsANoOpReturningSuccess : small.phase = .opened := rfl

theorem witness_ClearEmitsOneRawRowWordPerRow :
    small.phase = .opened ∧ small.cfg.rows = 1 ∧ large.phase = .opened ∧ large.cfg.rows = 8 :=
  ⟨rfl, rfl, rfl, rfl⟩

theorem witness_ClearCountTellsSuccess : ∃ t, exec (.cmdClear false) small = .next t := ⟨_, rfl⟩

theorem witness_FrameDecomposesTheBufferIntoEightLines :
    large.phase = .opened ∧ ∃ s, s.phase = .opened ∧ ∀ n ∈ writeAnswers 8 s, n = 2 :=
  ⟨rfl, session (grid true true true) [2, 2, 2, 2, 2, 2, 2, 2], rfl, by decide⟩

theorem witness_FrameFillsTheBufferExactly :
    (∃ t, exec (.cmdFrame 5 9 ⟨1, 2, 3, 4, 5, 6, 7, 8⟩) large = .next t ∧ large.cfg.ftEn = false) ∧
      ∃ s t, exec (.cmdFrame 5 9 ⟨1, 2, 3, 4, 5, 6, 7, 8⟩) s = .next t ∧ s.cfg.ftEn = true :=
  ⟨⟨_, rfl, rfl⟩, session ⟨false, false, false, true, 8, 8⟩ [2, 2, 2, 2, 2, 2, 2, 2], _, rfl, rfl⟩

theorem witness_FrameIsEightRowCommands :
    ∃ t, exec (.cmdFrame 0 0 ⟨1, 2, 3, 4, 5, 6, 7, 8⟩) large = .next t ∧
      ∀ i, i < 8 → memRead i t = .ok (([1, 2, 3, 4, 5, 6, 7, 8] : List Byte).getD i 0) := by
  refine ⟨_, rfl, fun i hi => ?_⟩
  match i, hi with
  | 0, _ | 1, _ | 2, _ | 3, _ | 4, _ | 5, _ | 6, _ | 7, _ => rfl

theorem witness_CommandsRunTheirTableWords : small.phase = .opened := rfl

theorem witness_OfferedWordsIgnoreTheTransport :
    isEncoderCommand (.cmdRow 2 1) = true ∧ large.cfg = (session (grid false false false) [0]).cfg ∧
      (∃ t, exec (.cmdRow 2 1) large = .next t) ∧
      ∃ u, exec (.cmdRow 2 1) (session (grid false false false) [0]) = .next u :=
  ⟨rfl, rfl, ⟨_, rfl⟩, _, rfl⟩

theorem witness_CountIsTheBytesAccepted :
    isEncoderCommand (.cmdLed 1 1 true) = true ∧ ∃ t, exec (.cmdLed 1 1 true) large = .next t :=
  ⟨rfl, _, rfl⟩

theorem witness_LineWritesAgreeWithSingleLeds :
    large.phase = .opened ∧ large.cfg.rows = 8 ∧ large.cfg.cols = 8 ∧ (0 : Byte).toNat < 8 ∧
      (7 : Byte).toNat < 8 := by decide

theorem witness_EvtDecodesAButtonWord :
    (polling (grid true true true) (.word 0x0F 0x77)).phase = .opened ∧
      nextRead (polling (grid true true true) (.word 0x0F 0x77)) = .word 0x0F 0x77 ∧
      (0x0F : Byte) >>> 4 = 0x0 ∧ nextRead (polling (grid true true true) (.word 0x1A 0x65)) =
        .word 0x1A 0x65 ∧ (0x1A : Byte) >>> 4 = 0x1 := by decide

/-- The bounds of the range: families `0x2` and `0xF`. -/
theorem witness_UnknownFamilyIsConsumedWithoutEvent :
    (polling (grid false false false) (.word 0x20 0x34)).phase = .opened ∧
      nextRead (polling (grid false false false) (.word 0x20 0x34)) = .word 0x20 0x34 ∧
      2 ≤ ((0x20 : Byte) >>> 4).toNat ∧
      nextRead (polling (grid false false false) (.word 0xFF 0x34)) = .word 0xFF 0x34 ∧
      2 ≤ ((0xFF : Byte) >>> 4).toNat := by decide

theorem witness_ShortReadIsNoEvent :
    (polling (grid false false false) .nothing).phase = .opened ∧
      nextRead (polling (grid false false false) .nothing) = .nothing ∧
      nextRead (polling (grid false false false) (.oneByte 0)) = .oneByte 0 := by decide

theorem witness_EvtRunsTheIncomingWord :
    (polling (grid true true true) (.word 0x20 0x12)).phase = .opened ∧
      nextRead (polling (grid true true true) (.word 0x20 0x12)) = .word 0x20 0x12 := by decide

theorem witness_LoopbackRecoversTheCell :
    small.phase = .opened ∧ small.cfg.Legal ∧ (0 : Byte).toNat < small.cfg.cols.toNat ∧
      (0 : Byte).toNat < small.cfg.rows.toNat ∧ large.phase = .opened ∧ large.cfg.Legal ∧
      (7 : Byte).toNat < large.cfg.cols.toNat ∧ (7 : Byte).toNat < large.cfg.rows.toNat ∧
      (0x0F : Byte) >>> 4 = 0x0 ∧ (0x10 : Byte) >>> 4 = 0x1 ∧
      (polling large.cfg (.word 0x0F 0x77)).phase = .opened ∧
      (polling large.cfg (.word 0x0F 0x77)).cfg = large.cfg ∧
      nextRead (polling large.cfg (.word 0x0F 0x77)) = .word 0x0F 0x77 := by decide

theorem witness_OutgoingRowsOfferTheirWord : small.phase = .opened := rfl
theorem witness_IncomingRowsGiveTheirEvent : small.phase = .opened := rfl

/-- OPEN's bounds, 1 and 8 for each extent, in phase `New`. -/
theorem witness_OpenBindsTheConfiguration :
    State.reset.phase = .fresh ∧
      nextOpen (machine .fresh Cfg.reset (transport [true] [] [] [])) = true ∧
      (next? (exec (.cmdOpen 0x880) (machine .fresh Cfg.reset (transport [true] [] [] [])))).map State.cfg ≠
        some Cfg.reset ∧
      1 ≤ ((0x810 : BitVec 12).extractLsb' 4 4).toNat ∧ ((0x810 : BitVec 12).extractLsb' 4 4).toNat ≤ 8 ∧
      1 ≤ ((0x810 : BitVec 12).extractLsb' 8 4).toNat ∧ ((0x810 : BitVec 12).extractLsb' 8 4).toNat ≤ 8 ∧
      ((0x810 : BitVec 12).extractLsb' 4 4).toNat = 1 ∧ ((0x810 : BitVec 12).extractLsb' 8 4).toNat = 8 := by
  decide

theorem witness_CloseEndsTheSession : large.phase = .opened := rfl

theorem witness_UnrecognizedCodesAnswerUnsupported :
    (presenting State.reset (command 0xA)).host = .present (command 0xA) :: [] ∧
      10 ≤ (0xA : BitVec 4).toNat ∧ (0x9 : BitVec 4).toNat < 10 ∧
      ∃ t, step (presenting large (command 0x9)) = .next t :=
  ⟨rfl, by decide, by decide, _, rfl⟩

theorem witness_WrongPhaseOrExtentIsRefused :
    large.phase ≠ .fresh ∧ State.reset.phase = .fresh ∧ ¬ (cfgOfImage 0x800).Legal ∧
      ¬ (cfgOfImage 0x980).Legal ∧ State.reset.phase ≠ .opened ∧
      isEncoderCommand (.cmdFrame 0 0 ⟨0, 0, 0, 0, 0, 0, 0, 0⟩) = true ∧
      isWireWord (.wLedOn 0 0) = true ∧ isWireWord (.eUnknown8F 7 0xF 0xFF) = true := by decide

theorem witness_OnlyOpenAndCloseMoveThePhase :
    (∃ t, exec (.cmdOpen 0x880) (machine .fresh Cfg.reset (transport [true] [] [] [])) = .next t) ∧
      (∃ t, exec .cmdClose large = .next t) ∧ ∃ t, exec (.cmdMode 0) large = .next t :=
  ⟨⟨_, rfl⟩, ⟨_, rfl⟩, _, rfl⟩

theorem witness_DoneIsLeftByResetOnly :
    ∃ s : State, s.phase = .closed ∧ (∃ t, step (presenting s (command 0xA)) = .next t) ∧
      ∃ t, step { s with host := [.reset] } = .next t :=
  ⟨machine .closed (grid true true true) Transport.initial, rfl, ⟨_, rfl⟩, _, rfl⟩

theorem witness_ConfigurationIsImmutableInASession :
    (∃ t, exec (.cmdOpen 0x880) (machine .fresh Cfg.reset (transport [true] [] [] [])) = .next t ∧
      t.cfg ≠ Cfg.reset) ∧
      large.phase ≠ .fresh ∧ (∀ rest, (presenting large (command 0x6)).host ≠ .reset :: rest) ∧
      ∃ t, step (presenting large (command 0x6)) = .next t :=
  ⟨⟨_, rfl, by decide⟩, by decide, by simp [presenting], _, rfl⟩

theorem witness_OnlyFrameWritesTheBuffer :
    (∃ t, exec (.cmdLed 1 1 true) large = .next t) ∧ ∀ xo yo f, Instr.cmdLed 1 1 true ≠ .cmdFrame xo yo f :=
  ⟨⟨_, rfl⟩, by simp⟩

theorem witness_UnspecifiedElementsKeepTheirValues :
    (∃ t, exec (.cmdClear true) large = .next t ∧ t.resp.evValid = false) ∧
      (∃ t, exec (.cmdFrame 0 0 ⟨1, 2, 3, 4, 5, 6, 7, 8⟩) large = .next t) ∧
      ∃ t, exec (.cmdLed 1 1 true) large = .next t :=
  ⟨⟨_, rfl, rfl⟩, ⟨_, rfl⟩, _, rfl⟩

theorem witness_BufferReadsWhatWasWritten :
    (0 : Nat) < 8 ∧ (7 : Nat) < 8 ∧ (8 : Nat) ≤ 8 ∧ (6 : Nat) ≠ 7 ∧
      Memory.wf [(0, 1), (7, 2)] = true := by decide

theorem witness_CanonicalBuffersWithEqualReadsAreEqual :
    ∃ s t : State, Memory.wf s.wb = true ∧ Memory.wf t.wb = true ∧ s.wb ≠ [] ∧
      ∀ a, memRead a s = memRead a t :=
  ⟨{ large with wb := [(0, 1), (7, 2)] }, { small with wb := [(0, 1), (7, 2)] }, by decide, by decide,
    by decide, fun _ => rfl⟩

theorem witness_TransportIsCalledOnlyWhileHeld :
    (∃ t, exec (.cmdLed 1 1 true) large = .next t) ∧
      ∃ t, exec (.cmdOpen 0x880) (machine .fresh Cfg.reset (transport [true] [] [] [])) = .next t :=
  ⟨⟨_, rfl⟩, _, rfl⟩

/-- An open session with a filled buffer, a word already offered and a failure reported. -/
def midSession : State :=
  { machine .opened (grid true true true) ⟨[], [], [], [], 1, [.txWrite 0x20 0x34 1]⟩ with
    wb := [(0, 1), (7, 2)], idx := 8, resp := ⟨1, 1, false, .buttonUp, 3, 4⟩ }

theorem witness_EveryStepKeepsTheInvariant :
    EngineInv midSession ∧ ∃ t, step (presenting midSession (command 0x6)) = .next t := by
  refine ⟨⟨fun _ => by decide, by decide, by decide, by decide, by decide, fun b0 b1 n h => ?_⟩, _, rfl⟩
  have h' : Call.txWrite b0 b1 n = .txWrite 0x20 0x34 1 := List.mem_singleton.1 h
  cases h'
  decide

/-- Two states that differ in every element the relation leaves free, in phase `Open` with a command
presented; two that differ in `CFG` in phase `New`; two responses that mean the same. -/
theorem witness_ElementsWithoutResetValueReachNoOutcome :
    SameSession (presenting midSession (command 0x6)) { presenting midSession (command 0x6) with
      wb := [], idx := 0, cnt := 9, txf := true, lat := Latches.zero, resp := Response.reset } ∧
    (∃ l rest, (presenting midSession (command 0x6)).host = .present (.command l) :: rest) ∧
    SameSession State.reset { State.reset with cfg := grid true true true } ∧
    SameResponse midSession.resp ⟨1, 1, false, .buttonDown, 0, 0⟩ :=
  ⟨⟨rfl, fun _ => rfl, rfl, rfl⟩, ⟨_, _, rfl⟩, ⟨rfl, fun h => absurd rfl h, rfl, rfl⟩,
    rfl, rfl, rfl, fun h => absurd h (by decide), fun h => absurd h (by decide),
    fun h => absurd h (by decide)⟩

theorem witness_ResponseCarriesNothingFromEarlierCommands :
    SameSession (presenting midSession (command 0x2))
      { presenting midSession (command 0x2) with wb := [], cnt := 9, txf := true } ∧
    (presenting midSession (command 0x2)).host = .present (command 0x2) :: [] :=
  ⟨⟨rfl, fun _ => rfl, rfl, rfl⟩, rfl⟩

end Sys2Proof.Tests
end

/-! Proofs: the session register. What an instruction and a step can do to `PHASE` and `CFG`
(spec/10_state.md R23; spec/43_session.md R99, R101, R104), said once. -/

namespace Sys2Proof.Machine

/-! ### Operations that leave `PHASE` and `CFG` alone -/

@[simp] theorem emitMany_phase (ws : List (Byte × Byte)) (s : State) :
    (emitMany ws s).phase = s.phase := (emitMany_spec ws s).1

@[simp] theorem emitMany_cfg (ws : List (Byte × Byte)) (s : State) :
    (emitMany ws s).cfg = s.cfg := (emitMany_spec ws s).2.1

@[simp] theorem emitOne_phase (w : Byte × Byte) (s : State) : (emitOne w s).phase = s.phase := rfl
@[simp] theorem emitOne_cfg (w : Byte × Byte) (s : State) : (emitOne w s).cfg = s.cfg := rfl

@[simp] theorem buttonWord_phase (k : EvKind) (b0 : Byte) (xd yd : Nibble) (s : State) :
    (buttonWord k b0 xd yd s).phase = s.phase := rfl
@[simp] theorem buttonWord_cfg (k : EvKind) (b0 : Byte) (xd yd : Nibble) (s : State) :
    (buttonWord k b0 xd yd s).cfg = s.cfg := rfl

@[simp] theorem droppedWord_phase (b0 b1 : Byte) (s : State) :
    (droppedWord b0 b1 s).phase = s.phase := rfl
@[simp] theorem droppedWord_cfg (b0 b1 : Byte) (s : State) :
    (droppedWord b0 b1 s).cfg = s.cfg := rfl

/-- The three things EVT can make of a word: a button down, a button up, no event (R92 to R95). -/
theorem eventOfWord_cases (b0 b1 : Byte) (s : State) :
    (∃ k, eventOfWord b0 b1 s = buttonEvent k (incomingX b1) (incomingY b1) s) ∨
      eventOfWord b0 b1 s = noEvent s := by
  simp only [eventOfWord]
  split_ifs
  · exact .inl ⟨_, rfl⟩
  · exact .inl ⟨_, rfl⟩
  · exact .inr rfl

/-- The event decoder writes the response only. -/
theorem eventOfAnswer_eq (a : ReadAnswer) (s : State) :
    eventOfAnswer a s = { s with resp := (eventOfAnswer a s).resp } := by
  cases a with
  | nothing => rfl
  | oneByte => rfl
  | word b0 b1 =>
    change eventOfWord b0 b1 s = { s with resp := (eventOfWord b0 b1 s).resp }
    obtain ⟨k, h⟩ | h := eventOfWord_cases b0 b1 s <;> rw [h] <;> rfl

@[simp] theorem eventOfAnswer_phase (a : ReadAnswer) (s : State) :
    (eventOfAnswer a s).phase = s.phase := by rw [eventOfAnswer_eq]

@[simp] theorem eventOfAnswer_cfg (a : ReadAnswer) (s : State) :
    (eventOfAnswer a s).cfg = s.cfg := by rw [eventOfAnswer_eq]

@[simp] theorem accept_phase (u : EncUnit) (rest : List HostItem) (s : State) :
    (accept u rest s).phase = s.phase := by cases u <;> rfl

@[simp] theorem accept_cfg (u : EncUnit) (rest : List HostItem) (s : State) :
    (accept u rest s).cfg = s.cfg := by cases u <;> rfl

/-! ### What moves the session -/

/-- What the instruction `i` does to the session from `s` to `t`: nothing; or it is an OPEN that the
transport grants, from `New` to `Open`, and binds `CFG` (R99); or it is CLOSE, from `Open` to `Done`,
which keeps `CFG` (R101). -/
inductive SessionMove (s t : State) : Instr → Prop where
  | kept {i : Instr} (phase : t.phase = s.phase) (cfg : t.cfg = s.cfg) : SessionMove s t i
  | opens {c : BitVec 12} (fresh : s.phase = .fresh) (legal : (cfgOfImage c).Legal)
      (granted : nextOpen s = true) (phase : t.phase = .opened) (cfg : t.cfg = cfgOfImage c) :
      SessionMove s t (.cmdOpen c)
  | closes (opened : s.phase = .opened) (phase : t.phase = .closed) (cfg : t.cfg = s.cfg) :
      SessionMove s t .cmdClose

theorem sessionMove_open {c : BitVec 12} {s t : State} (h : Ends s t (.cmdOpen c)) :
    SessionMove s t (.cmdOpen c) := by
  obtain ⟨hp, hl, rfl⟩ := h
  by_cases ho : nextOpen s = true
  · rw [if_pos ho]
    exact .opens hp hl ho rfl rfl
  · rw [if_neg ho]
    exact .kept rfl rfl

/-- The session inversion of `exec`, read off `exec_ends`: only OPEN and CLOSE move the session. -/
theorem exec_sessionMove {i : Instr} {s t : State} (h : exec i s = .next t) : SessionMove s t i := by
  have he := exec_ends h
  cases i with
  | cmdOpen c => exact sessionMove_open he
  | cmdClose =>
    obtain ⟨hp, rfl⟩ := he
    exact .closes hp rfl rfl
  | cmdFrame xo yo f =>
    obtain ⟨-, m, rfl, -⟩ := he
    exact .kept (by simp) (by simp)
  | unrecognizedAB => subst he; exact .kept rfl rfl
  | unrecognizedCF => subst he; exact .kept rfl rfl
  | _ =>
    obtain ⟨-, rfl⟩ := he
    exact .kept (by simp) (by simp)

/-- Once the phase has left `New`, no instruction writes `CFG` or leads back to `New`. -/
theorem exec_cfg_kept_and_not_fresh {i : Instr} {s t : State} (hp : s.phase ≠ .fresh)
    (h : exec i s = .next t) : t.cfg = s.cfg ∧ t.phase ≠ .fresh := by
  cases exec_sessionMove h with
  | kept phase cfg => exact ⟨cfg, phase ▸ hp⟩
  | opens fresh => exact absurd fresh hp
  | closes _ phase cfg => exact ⟨cfg, by simp [phase]⟩

/-- What a step that answers a next state can have been: a wait, a reset, an instruction. -/
theorem step_cases {s t : State} (h : step s = .next t) :
    (s.host = [] ∧ t = s) ∨
    (∃ rest, s.host = .reset :: rest ∧ t = engineReset { s with host := rest }) ∨
    (∃ u rest i, s.host = .present u :: rest ∧ decode u = .ok i ∧
      exec i (accept u rest s) = .next t) := by
  unfold step at h
  split at h
  next hh => exact .inl ⟨hh, (Host.Outcome.next.inj h).symm⟩
  next rest hh => exact .inr (.inl ⟨rest, hh, (Host.Outcome.next.inj h).symm⟩)
  next u rest hh =>
    split at h
    next i hd => exact .inr (.inr ⟨u, rest, i, hh, hd, h⟩)
    next => cases h

end Sys2Proof.Machine

namespace Sys2Proof.Proofs

open Sys2Proof.Machine

/-- Settles O48 (R23): `SessionMove` says that only a granted OPEN, from `New` to `Open`, writes `CFG`; a
step that is no reset is a wait or an instruction. -/
theorem configurationIsImmutableInASession : Obligations.ConfigurationIsImmutableInASession := by
  unfold Obligations.ConfigurationIsImmutableInASession
  refine ⟨fun i s t h hne => ?_, fun c s t h => ?_, fun s t hp hnr h => ?_⟩
  · cases exec_sessionMove h with
    | kept _ cfg => exact absurd cfg hne
    | opens fresh _ _ phase => exact ⟨⟨_, rfl⟩, fresh, phase⟩
    | closes _ _ cfg => exact absurd cfg hne
  · obtain ⟨fresh, -⟩ := exec_ends h
    exact fresh
  · obtain ⟨-, rfl⟩ | ⟨rest, hh, -⟩ | ⟨u, rest, i, -, -, hx⟩ := step_cases h
    · exact ⟨rfl, hp⟩
    · exact absurd hh (hnr rest)
    · have hp' : (accept u rest s).phase ≠ .fresh := by rwa [accept_phase]
      simpa using exec_cfg_kept_and_not_fresh hp' hx

end Sys2Proof.Proofs


/-! Proofs: the outgoing bytes as numbers (spec/30_encoding.md R53, R54). Each is one small value above
another, so packing is `p * 16 + q`. -/

namespace Sys2Proof.Machine

/-- Two values below 16 packed into one byte do not overlap: OR is addition. -/
theorem toNat_shiftLeft_four_or {p q : Byte} (hp : p.toNat < 16) (hq : q.toNat < 16) :
    (p <<< 4 ||| q).toNat = p.toNat * 16 + q.toNat := by
  have high : p.toNat <<< 4 < 2 ^ 8 := by rw [Nat.shiftLeft_eq]; omega
  calc (p <<< 4 ||| q).toNat
      = p.toNat <<< 4 ||| q.toNat := by
        rw [BitVec.toNat_or, BitVec.toNat_shiftLeft, Nat.mod_eq_of_lt high]
    _ = p.toNat <<< 4 + q.toNat := (Nat.shiftLeft_add_eq_or_of_lt hq p.toNat).symm
    _ = p.toNat * 16 + q.toNat := by rw [Nat.shiftLeft_eq]

/-- `mask3` is the remainder modulo 8 (R73). -/
@[simp] theorem mask3_toNat (v : Byte) : (mask3 v).toNat = v.toNat % 8 :=
  (BitVec.toNat_and v 0x07).trans (Nat.and_two_pow_sub_one_eq_mod v.toNat 3)

theorem mask3_toNat_lt (v : Byte) : (mask3 v).toNat < 16 := by
  rw [mask3_toNat]
  omega

/-- R53 as a number. -/
theorem ledPayload_toNat (xr yr : Byte) :
    (ledPayload xr yr).toNat = xr.toNat % 8 * 16 + yr.toNat % 8 := by
  rw [ledPayload, toNat_shiftLeft_four_or (mask3_toNat_lt xr) (mask3_toNat_lt yr), mask3_toNat,
    mask3_toNat]

/-- R54 as a number. -/
theorem lineByte0_toNat (opc : Nibble) (a : Byte) :
    (lineByte0 opc a).toNat = opc.toNat * 16 + a.toNat % 8 := by
  have nibble : (opc.setWidth 8).toNat = opc.toNat :=
    BitVec.toNat_setWidth_of_le (by decide)
  rw [lineByte0, opcodeByte, toNat_shiftLeft_four_or (nibble ▸ opc.isLt) (mask3_toNat_lt a), nibble,
    mask3_toNat]

end Sys2Proof.Machine

namespace Sys2Proof.Proofs

open Sys2Proof.Machine

/-- Settles O17 (R53, R54): the formulas are the definitions, and the numbers follow because the packed
fields do not overlap. -/
theorem outgoingBytesArePackedWithThreeBitFields :
    Obligations.OutgoingBytesArePackedWithThreeBitFields := by
  unfold Obligations.OutgoingBytesArePackedWithThreeBitFields
  exact ⟨fun xr yr => ⟨rfl, ledPayload_toNat xr yr⟩, fun opc a => ⟨rfl, lineByte0_toNat opc a⟩⟩

end Sys2Proof.Proofs


/-! Proofs: the transform unit's byte reversal, line payload and line opcode (spec/40_transform.md R64,
R71, R72). -/

namespace Sys2Proof.Machine

/-! ### Byte reversal (R64) -/

/-- The sum of R64 is the library's bit reversal: R64 asks it to be exact for all 256 values, and they are
checked here. What else R64 says of bits and involution is then the library's. -/
theorem rev8_eq_reverse (b : Byte) : rev8 b = b.reverse := by
  revert b
  decide

theorem rev8_getLsbD (b : Byte) {i : Nat} (hi : i < 8) :
    (rev8 b).getLsbD i = b.getLsbD (7 - i) := by
  rw [rev8_eq_reverse, BitVec.getLsbD_reverse, BitVec.getMsbD_eq_getLsbD, decide_eq_true hi,
    Bool.true_and]

@[simp] theorem rev8_rev8 (b : Byte) : rev8 (rev8 b) = b := by
  rw [rev8_eq_reverse, rev8_eq_reverse, BitVec.reverse_reverse_eq]

/-- The palindromic bytes of R64, among all 256. -/
theorem rev8_eq_self_iff (b : Byte) :
    rev8 b = b ↔ b.toNat ∈ [0x00, 0x18, 0x24, 0x3C, 0x42, 0x5A, 0x66, 0x7E,
      0x81, 0x99, 0xA5, 0xBD, 0xC3, 0xDB, 0xE7, 0xFF] := by
  revert b
  decide

/-! ### `SWAP` and the parts of a line write (R70 to R72) -/

@[simp] theorem axisPayload_row (c : Cfg) (d : Byte) :
    axisPayload c .row d = if c.rowRev then rev8 d else d := rfl

@[simp] theorem axisPayload_col (c : Cfg) (d : Byte) :
    axisPayload c .col d = if c.colRev then rev8 d else d := rfl

/-- R71: `SWAP` does not enter the payload. -/
theorem axisPayload_setSwap (c : Cfg) (b : Bool) (axis : Axis) (d : Byte) :
    axisPayload { c with swap := b } axis d = axisPayload c axis d := by
  cases axis <;> rfl

/-- R70: `rotate` may exchange the mirrored indices; the one that descends from the row input is kept. -/
theorem axisAddr_row (c : Cfg) (a : Byte) : axisAddr c .row a = my c a := by
  cases h : c.swap <;> simp [axisAddr, rotate, h]

theorem axisAddr_col (c : Cfg) (a : Byte) : axisAddr c .col a = mx c a := by
  cases h : c.swap <;> simp [axisAddr, rotate, h]

/-- `SWAP` does not enter the line index: neither mirror reads it. -/
theorem axisAddr_setSwap (c : Cfg) (b : Bool) (axis : Axis) (a : Byte) :
    axisAddr { c with swap := b } axis a = axisAddr c axis a := by
  cases axis with
  | row => rw [axisAddr_row, axisAddr_row]; rfl
  | col => rw [axisAddr_col, axisAddr_col]; rfl

/-- R72: setting `SWAP` toggles the opcode nibble. -/
theorem axisOpcode_setSwap_true (c : Cfg) (axis : Axis) :
    axisOpcode { c with swap := true } axis = axisOpcode { c with swap := false } axis ^^^ 0x8 := rfl

/-- An exclusive-or passes an or whose other argument has no bit in common with it. -/
theorem xor_or_of_and_eq_zero {w : Nat} {p q m : BitVec w} (h : m &&& q = 0#w) :
    (p ^^^ q) ||| m = (p ||| m) ^^^ q := by
  ext i hi
  have disjoint : (m[i] && q[i]) = false := by
    rw [← BitVec.getElem_and, h, BitVec.getElem_zero]
  rw [BitVec.getElem_or, BitVec.getElem_xor, BitVec.getElem_xor, BitVec.getElem_or]
  cases hq : q[i] with
  | false => rw [Bool.xor_false, Bool.xor_false]
  | true =>
    rw [hq, Bool.and_true] at disjoint
    rw [disjoint, Bool.or_false, Bool.or_false]

/-- The masked index leaves bit 7 alone. -/
theorem mask3_and_bit7 (a : Byte) : mask3 a &&& 0x80 = 0#8 := by
  have disjoint : (0x07 &&& 0x80 : Byte) = 0#8 := rfl
  rw [mask3, BitVec.and_assoc, disjoint, BitVec.and_zero]

/-- The nibble's toggle is bit 7 of the byte (R72). -/
theorem opcodeByte_xor_8 (opc : Nibble) : opcodeByte (opc ^^^ 0x8) = opcodeByte opc ^^^ 0x80 := by
  rw [opcodeByte, BitVec.setWidth_xor, BitVec.shiftLeft_xor_distrib]
  rfl

theorem lineByte0_xor_8 (opc : Nibble) (a : Byte) :
    lineByte0 (opc ^^^ 0x8) a = lineByte0 opc a ^^^ 0x80 := by
  rw [lineByte0, opcodeByte_xor_8, xor_or_of_and_eq_zero (mask3_and_bit7 a), lineByte0]

/-- R72 on the wire: `SWAP` inverts bit 7 of byte 0 and nothing else of it. -/
theorem lineWord_fst_setSwap_true (c : Cfg) (axis : Axis) (a d : Byte) :
    (lineWord { c with swap := true } axis a d).1 =
      (lineWord { c with swap := false } axis a d).1 ^^^ 0x80 := by
  simp only [lineWord]
  rw [axisOpcode_setSwap_true, lineByte0_xor_8, axisAddr_setSwap c true, axisAddr_setSwap c false]

end Sys2Proof.Machine

namespace Sys2Proof.Proofs

open Sys2Proof.Machine

/-- Settles O10 (R64): `rev8` is the library's bit reversal; the palindromes are found among all 256
bytes. -/
theorem byteReversalReversesEveryBit : Obligations.ByteReversalReversesEveryBit := by
  unfold Obligations.ByteReversalReversesEveryBit
  exact ⟨fun b _ hi => rev8_getLsbD b hi, rev8_rev8, rfl, rfl, rfl, rfl, rev8_eq_self_iff⟩

/-- Settles O15 (R71): each axis reads its own flag, and neither reads `SWAP`. -/
theorem payloadReversedByTheCommandAxisFlag : Obligations.PayloadReversedByTheCommandAxisFlag := by
  unfold Obligations.PayloadReversedByTheCommandAxisFlag
  refine ⟨fun c d => ⟨axisPayload_row c d, axisPayload_col c d⟩, axisPayload_setSwap,
    fun c hr hc => ⟨?_, ?_⟩⟩
  · rw [axisPayload_row, if_pos hr]; rfl
  · rw [axisPayload_col, hc]; rfl

/-- Settles O16 (R72): the table is `axisOpcode_cases`; the toggle inverts bit 7, which the index, masked
to 3 bits, does not share. -/
theorem swapTogglesTheLineOpcode : Obligations.SwapTogglesTheLineOpcode := by
  unfold Obligations.SwapTogglesTheLineOpcode
  refine ⟨fun c h => ?_, fun c h => ?_, lineWord_fst_setSwap_true⟩
  · exact ⟨by simp [axisOpcode_cases, h, Config.opcRow], by simp [axisOpcode_cases, h, Config.opcCol]⟩
  · exact ⟨by simp [axisOpcode_cases, h, Config.opcCol], by simp [axisOpcode_cases, h, Config.opcRow]⟩

end Sys2Proof.Proofs


/-! Proofs: the event decoder (spec/42_event_decode.md). What each family of word gives (R92 to R95), and
what taking an answer does beside the response (R91). -/

namespace Sys2Proof.Machine

/-! ### The nibbles of an incoming byte (R52, R55) -/

/-- The high nibble as a number is the byte shifted down. -/
theorem highNibble_toNat (b : Byte) : (b.extractLsb' 4 4).toNat = (b >>> 4).toNat := by
  have bound : b.toNat >>> 4 < 2 ^ 4 := by
    rw [Nat.shiftRight_eq_div_pow]
    omega
  rw [BitVec.extractLsb'_toNat, BitVec.toNat_ushiftRight, Nat.mod_eq_of_lt bound]

/-- R93: `xd` is `b1 >> 4`. -/
theorem incomingX_eq_shiftRight (b1 : Byte) : incomingX b1 = b1 >>> 4 :=
  BitVec.eq_of_toNat_eq ((BitVec.toNat_setWidth_of_le (by decide)).trans (highNibble_toNat b1))

/-- R93: `yd` is `b1 & 0xF`. -/
theorem incomingY_eq_and (b1 : Byte) : incomingY b1 = b1 &&& 0xF := by
  apply BitVec.eq_of_toNat_eq
  calc (incomingY b1).toNat
      = (b1.extractLsb' 0 4).toNat := BitVec.toNat_setWidth_of_le (by decide)
    _ = b1.toNat % 2 ^ 4 := by rw [BitVec.extractLsb'_toNat, Nat.shiftRight_zero]
    _ = (b1 &&& 0xF).toNat := (Nat.and_two_pow_sub_one_eq_mod b1.toNat 4).symm

/-! ### The families (R92, R95) -/

theorem eventOfWord_down {b0 : Byte} (h : b0 >>> 4 = 0x0) (b1 : Byte) (s : State) :
    eventOfWord b0 b1 s = buttonEvent .buttonDown (b1 >>> 4) (b1 &&& 0xF) s := by
  have down : b0.extractLsb' 4 4 = Config.famDown :=
    BitVec.eq_of_toNat_eq (by rw [highNibble_toNat, h]; rfl)
  rw [eventOfWord, if_pos down, incomingX_eq_shiftRight, incomingY_eq_and]

theorem eventOfWord_up {b0 : Byte} (h : b0 >>> 4 = 0x1) (b1 : Byte) (s : State) :
    eventOfWord b0 b1 s = buttonEvent .buttonUp (b1 >>> 4) (b1 &&& 0xF) s := by
  have up : b0.extractLsb' 4 4 = Config.famUp :=
    BitVec.eq_of_toNat_eq (by rw [highNibble_toNat, h]; rfl)
  have notDown : b0.extractLsb' 4 4 ≠ Config.famDown := by rw [up]; decide
  rw [eventOfWord, if_neg notDown, if_pos up, incomingX_eq_shiftRight, incomingY_eq_and]

/-- A family that is a number from 2 on is neither of the buttons' two. -/
theorem eventOfWord_unknown {b0 : Byte} (h : 2 ≤ (b0 >>> 4).toNat) (b1 : Byte) (s : State) :
    eventOfWord b0 b1 s = noEvent s := by
  rw [← highNibble_toNat] at h
  have notButton {f : Nibble} (hf : f.toNat < 2) : b0.extractLsb' 4 4 ≠ f := fun e => by
    rw [e] at h
    omega
  rw [eventOfWord, if_neg (notButton (by decide)), if_neg (notButton (by decide))]

/-! ### One `RxRead` (R91) -/

/-- What EVT does beside its response when the transport answers `a`: that answer is taken and recorded,
nothing is offered, and session, accumulators and buffer are as before. -/
structure AnswerTaken (a : ReadAnswer) (s t : State) : Prop where
  tr : t.tr = { s.tr with reads := s.tr.reads.drop 1, drawn := s.tr.drawn + 1,
                          calls := s.tr.calls ++ [.rxRead a] }
  session : SessionKept s t
  accumulators : AccumulatorsKept s t
  buffer : BufferKept s t

/-- Whatever event an answer is decoded to, the rest of the state is that of `RxRead`. -/
theorem eventOfAnswer_answerTaken (a : ReadAnswer) (s : State) :
    AnswerTaken a s (eventOfAnswer a (recordRead a (drawRead s).2)) := by
  rw [eventOfAnswer_eq]
  exact ⟨by simp [draw_rest], ⟨rfl, rfl, rfl, rfl⟩, ⟨rfl, rfl⟩, fun _ => rfl⟩

/-- R91 with R92 to R95: EVT answered with a whole word takes it, and its response is the word's. -/
theorem exec_evt_word {s : State} {b0 b1 : Byte} (hp : s.phase = .opened)
    (hr : nextRead s = .word b0 b1) :
    ∃ t, exec .cmdEvt s = .next t ∧
      t = eventOfWord b0 b1 (recordRead (.word b0 b1) (drawRead s).2) ∧
      AnswerTaken (.word b0 b1) s t := by
  have run := exec_evt hp
  rw [hr] at run
  exact ⟨_, run, rfl, eventOfAnswer_answerTaken (.word b0 b1) s⟩

theorem noEvent_noEventAnswered {r s : State} : NoEventAnswered r (noEvent s) := ⟨rfl, rfl, rfl⟩

/-- After an answer has been taken the next read finds what follows it. -/
theorem nextRead_of_answerTaken {a : ReadAnswer} {s t : State} (h : AnswerTaken a s t) :
    nextRead t = (draw (s.tr.reads.drop 1) (Config.rxReadFree (s.tr.drawn + 1))).1 := by
  rw [nextRead, h.tr]

end Sys2Proof.Machine

namespace Sys2Proof.Proofs

open Sys2Proof.Machine

/-- Settles O34 (R92 to R94): the family of byte 0 picks the kind; both kinds take the two nibbles of
byte 1 through `unrotate`. -/
theorem evtDecodesAButtonWord : Obligations.EvtDecodesAButtonWord := by
  unfold Obligations.EvtDecodesAButtonWord
  intro s b0 b1 hp hr kind hk
  obtain ⟨t, run, ht, taken⟩ := exec_evt_word hp hr
  refine ⟨t, run, ?_, taken.tr, taken.session, taken.accumulators, taken.buffer⟩
  obtain ⟨down, rfl⟩ | ⟨up, rfl⟩ := hk
  · rw [ht, eventOfWord_down down]; rfl
  · rw [ht, eventOfWord_up up]; rfl

/-- Settles O35 (R95): the word is taken like any other, and its response is no event. -/
theorem unknownFamilyIsConsumedWithoutEvent : Obligations.UnknownFamilyIsConsumedWithoutEvent := by
  unfold Obligations.UnknownFamilyIsConsumedWithoutEvent
  intro s b0 b1 hp hr hf
  obtain ⟨t, run, ht, taken⟩ := exec_evt_word hp hr
  rw [eventOfWord_unknown hf] at ht
  exact ⟨t, run, ht ▸ noEvent_noEventAnswered, taken.tr, taken.session, taken.accumulators,
    taken.buffer, nextRead_of_answerTaken taken⟩

end Sys2Proof.Proofs


/-! Proofs: OPEN's two answers and the end of a session (spec/43_session.md R99, R103). -/

namespace Sys2Proof.Machine

/-! ### OPEN (R99) -/

theorem exec_open_granted {c : BitVec 12} {s : State} (hp : s.phase = .fresh)
    (hl : (cfgOfImage c).Legal) (ho : nextOpen s = true) :
    exec (.cmdOpen c) s =
      .next (respond statusOk 0 { (txOpen s).2 with cfg := cfgOfImage c, phase := .opened }) := by
  rw [exec_open hp hl, if_pos ho]

theorem exec_open_denied {c : BitVec 12} {s : State} (hp : s.phase = .fresh)
    (hl : (cfgOfImage c).Legal) (ho : ¬ nextOpen s = true) :
    exec (.cmdOpen c) s = .next (failWith statusTransportFailure (txOpen s).2) := by
  rw [exec_open hp hl, if_neg ho]

/-- What OPEN does beside session and status, whatever the transport answers: the one `TxOpen` is
recorded with its answer, no event is reported, and latches, accumulators and buffer are as before. -/
structure OpenAnswered (s t : State) : Prop where
  count : t.resp.count = 0
  evValid : t.resp.evValid = false
  tr : t.tr = { s.tr with opens := s.tr.opens.drop 1, drawn := s.tr.drawn + 1,
                          calls := s.tr.calls ++ [.txOpen (nextOpen s)] }
  lat : t.lat = s.lat
  host : t.host = s.host
  accumulators : AccumulatorsKept s t
  buffer : BufferKept s t

/-- Whatever is then written to session and status, the rest is that of `TxOpen`. -/
theorem openAnswered_respond (status : BitVec 2) (c : Cfg) (p : Phase) (s : State) :
    OpenAnswered s (respond status 0 { (txOpen s).2 with cfg := c, phase := p }) :=
  ⟨rfl, rfl, by simp [draw_rest], rfl, rfl, ⟨rfl, rfl⟩, fun _ => rfl⟩

theorem openAnswered_failWith (status : BitVec 2) (s : State) :
    OpenAnswered s (failWith status (txOpen s).2) :=
  openAnswered_respond status s.cfg s.phase s

theorem newCalls_of_append {s t : State} {cs : List Call} (h : t.tr.calls = s.tr.calls ++ cs) :
    newCalls s t = cs := by
  rw [newCalls, h, List.drop_left]

/-- OPEN offers no wire word: its one call is `TxOpen`. -/
theorem offeredWords_of_openAnswered {s t : State} (h : OpenAnswered s t) :
    offeredWords (newCalls s t) = [] := by
  have calls : t.tr.calls = s.tr.calls ++ [.txOpen (nextOpen s)] := by rw [h.tr]
  rw [newCalls_of_append calls]
  rfl

theorem exec_open_fresh {c : BitVec 12} {s t : State} (h : exec (.cmdOpen c) s = .next t) :
    s.phase = .fresh := by
  obtain ⟨fresh, -⟩ := exec_ends h
  exact fresh

/-- Only OPEN writes `CFG` (R23, R99). -/
theorem eq_open_of_exec_cfg_ne {i : Instr} {s t : State} (h : exec i s = .next t)
    (hne : t.cfg ≠ s.cfg) : ∃ c, i = .cmdOpen c := by
  cases exec_sessionMove h with
  | kept _ cfg => exact absurd cfg hne
  | opens => exact ⟨_, rfl⟩
  | closes _ _ cfg => exact absurd cfg hne

/-! ### `Done` (R103) -/

/-- The moves of the session start in `New` or in `Open`, so none leads out of `Done`. -/
theorem exec_phase_of_closed {i : Instr} {s t : State} (hp : s.phase = .closed)
    (h : exec i s = .next t) : t.phase = .closed := by
  cases exec_sessionMove h with
  | kept phase => exact phase.trans hp
  | opens fresh => cases hp.symm.trans fresh
  | closes opened => cases hp.symm.trans opened

theorem step_reset {s : State} {rest : List HostItem} (h : s.host = .reset :: rest) :
    step s = .next (engineReset { s with host := rest }) := by
  rw [step, h]

end Sys2Proof.Machine

namespace Sys2Proof.Proofs

open Sys2Proof.Machine

/-- Settles O41 (R99): the two answers of `TxOpen` differ in session and status only; that nothing else
writes `CFG` is the session inversion of `exec`. -/
theorem openBindsTheConfiguration : Obligations.OpenBindsTheConfiguration := by
  unfold Obligations.OpenBindsTheConfiguration
  refine ⟨fun c s hp hr hr' hc hc' => ?_, fun c s t => exec_open_fresh,
    fun i s t => eq_open_of_exec_cfg_ne, fun s hp ho => ?_⟩
  · have legal : (cfgOfImage c).Legal := ⟨hr, hr', hc, hc'⟩
    by_cases ho : nextOpen s = true
    · obtain ⟨count, evValid, tr, lat, host, accumulators, buffer⟩ :=
        openAnswered_respond statusOk (cfgOfImage c) .opened s
      simp only [if_pos ho]
      exact ⟨_, exec_open_granted hp legal ho, rfl, rfl, rfl, count, evValid, tr, lat, host,
        accumulators, buffer⟩
    · obtain ⟨count, evValid, tr, lat, host, accumulators, buffer⟩ :=
        openAnswered_failWith statusTransportFailure s
      simp only [if_neg ho]
      exact ⟨_, exec_open_denied hp legal ho, hp, rfl, rfl, count, evValid, tr, lat, host,
        accumulators, buffer⟩
  · exact ⟨_, exec_open_granted hp (by decide) ho, rfl, rfl, rfl,
      offeredWords_of_openAnswered (openAnswered_respond statusOk (cfgOfImage 0x880) .opened s)⟩

/-- Settles O47 (R103): a step is a wait or an instruction, which keep `Done`, or a reset. -/
theorem doneIsLeftByResetOnly : Obligations.DoneIsLeftByResetOnly := by
  unfold Obligations.DoneIsLeftByResetOnly
  refine fun s t hp h => ⟨fun hnr => ?_, fun rest hh => ?_⟩
  · obtain ⟨-, rfl⟩ | ⟨rest, hh, -⟩ | ⟨u, rest, i, -, -, hx⟩ := step_cases h
    · exact hp
    · exact absurd hh (hnr rest)
    · exact exec_phase_of_closed ((accept_phase u rest s).trans hp) hx
  · cases (step_reset hh).symm.trans h
    rfl

end Sys2Proof.Proofs


/-! Proofs: the unrecognised operation codes (spec/60_exceptions.md R109). Which codes are decoded to them,
and that no other command answers their status. -/

namespace Sys2Proof.Machine

/-! ### The codes (R46, R59) -/

/-- The two ranges of unrecognised `OP` codes (R59). -/
def isUnrecognized : Instr → Bool
  | .unrecognizedAB _ => true
  | .unrecognizedCF _ => true
  | _ => false

/-- R59, R109: the check comes at decode and looks at `OP` alone; its 16 values are checked here. -/
theorem isUnrecognized_decodeCommand (l : Latches) :
    isUnrecognized (decodeCommand l) = decide (10 ≤ l.op.toNat) := by
  simp only [decodeCommand, apply_ite isUnrecognized]
  simp only [isUnrecognized]
  generalize l.op = op
  revert op
  decide

/-- A command is decoded to no wire word (R44). -/
theorem isWireWord_decodeCommand (l : Latches) : isWireWord (decodeCommand l) = false := by
  simp only [decodeCommand, apply_ite isWireWord]
  simp only [isWireWord, ite_self]

/-- A presented command is run with its item taken and its latches loaded. -/
theorem step_command {s : State} {l : Latches} {rest : List HostItem}
    (h : s.host = .present (.command l) :: rest) :
    step s = exec (decodeCommand l) { s with host := rest, lat := l } := by
  rw [step, h]
  rfl

/-! ### The answer of an unrecognised code -/

theorem exec_unrecognized {i : Instr} (h : isUnrecognized i = true) (s : State) :
    exec i s = .next (failWith statusUnsupported s) := by
  cases i with
  | unrecognizedAB | unrecognizedCF => rfl
  | _ => cases h

theorem failWith_answersUnsupported (s : State) :
    AnswersUnsupported s (failWith statusUnsupported s) :=
  ⟨rfl, rfl, rfl, rfl, ⟨rfl, rfl, rfl, rfl⟩, ⟨rfl, rfl⟩, fun _ => rfl⟩

/-! ### The statuses of the recognised commands (R77, R94, R99 to R101) -/

theorem statusOfAnswer_ne_unsupported (ok : Bool) : statusOfAnswer ok ≠ 2 := by
  cases ok <;> decide

theorem epilogue_status_ne_unsupported (s : State) : (epilogue s).resp.status ≠ 2 := by
  change statusOfTxf s.txf ≠ 2
  cases s.txf <;> decide

/-- EVT answers OK, whatever it reads (R94 to R96). -/
theorem eventOfAnswer_status (a : ReadAnswer) (s : State) :
    (eventOfAnswer a s).resp.status = statusOk := by
  cases a with
  | nothing | oneByte => rfl
  | word b0 b1 =>
    change (eventOfWord b0 b1 s).resp.status = statusOk
    obtain ⟨k, h⟩ | h := eventOfWord_cases b0 b1 s <;> rw [h] <;> rfl

/-- Read off `exec_ends`: a recognised command ends in the epilogue, in an event, or in the status of
`TxOpen` or `TxClose`. -/
theorem exec_status_ne_unsupported {i : Instr} {s t : State} (hw : isWireWord i = false)
    (hu : isUnrecognized i = false) (h : exec i s = .next t) : t.resp.status ≠ 2 := by
  have he := exec_ends h
  cases i with
  | cmdOpen c =>
    obtain ⟨-, -, rfl⟩ := he
    split_ifs
    · exact statusOfAnswer_ne_unsupported true
    · exact statusOfAnswer_ne_unsupported false
  | cmdClose =>
    obtain ⟨-, rfl⟩ := he
    exact statusOfAnswer_ne_unsupported (nextClose s)
  | cmdEvt =>
    obtain ⟨-, rfl⟩ := he
    rw [eventOfAnswer_status]
    decide
  | cmdClear | cmdIntensity | cmdMode | cmdLed | cmdRow | cmdCol =>
    obtain ⟨-, rfl⟩ := he
    exact epilogue_status_ne_unsupported _
  | cmdFrame xo yo f =>
    obtain ⟨-, m, rfl, -⟩ := he
    exact epilogue_status_ne_unsupported _
  | unrecognizedAB | unrecognizedCF => cases hu
  | _ => cases hw

end Sys2Proof.Machine

namespace Sys2Proof.Proofs

open Sys2Proof.Machine

/-- Settles O43 (R109): the decoder tells the codes from 10 on apart by `OP` alone; those answer
`UnsupportedOperation` in every phase, and a command of any other code ends in another status. -/
theorem unrecognizedCodesAnswerUnsupported : Obligations.UnrecognizedCodesAnswerUnsupported := by
  unfold Obligations.UnrecognizedCodesAnswerUnsupported
  refine ⟨fun low s => ⟨_, exec_unrecognized rfl s, failWith_answersUnsupported s⟩,
    fun low s => ⟨_, exec_unrecognized rfl s, failWith_answersUnsupported s⟩, fun s l rest hh => ?_⟩
  rw [step_command hh]
  refine ⟨fun hop => ?_, fun hop t => ?_⟩
  · have unrecognized : isUnrecognized (decodeCommand l) = true := by
      rw [isUnrecognized_decodeCommand, decide_eq_true hop]
    exact ⟨_, exec_unrecognized unrecognized _, failWith_answersUnsupported _⟩
  · have recognized : isUnrecognized (decodeCommand l) = false := by
      rw [isUnrecognized_decodeCommand, decide_eq_false (by omega)]
    exact exec_status_ne_unsupported (isWireWord_decodeCommand l) recognized

end Sys2Proof.Proofs


/-! Proofs: the decoder and the encoder undo each other (spec/30_encoding.md R46, R49 to R52, R56 to R61).
The table's rows are then the images of the encoder, row by row. -/

namespace Sys2Proof

/-! ### Commands (R46, R59) -/

theorem decode_encode_unrecognizedAB (low : BitVec 1) :
    decode (encode (.unrecognizedAB low)) = .ok (.unrecognizedAB low) := by
  revert low
  decide

theorem decode_encode_unrecognizedCF (low : BitVec 2) :
    decode (encode (.unrecognizedCF low)) = .ok (.unrecognizedCF low) := by
  revert low
  decide

/-! ### Outgoing words (R49 to R51) -/

/-- The two coordinates of an LED word stand in the payload as R49 lays them out. -/
theorem decodeLedPayload_encodeLedPayload (mk : BitVec 3 → BitVec 3 → Instr) (xr yr : BitVec 3) :
    decodeLedPayload mk (encodeLedPayload xr yr) = .ok (mk xr yr) := by
  have layout : ∀ p q : BitVec 3,
      ((encodeLedPayload p q).extractLsb' 7 1 = 0x0 ∧ (encodeLedPayload p q).extractLsb' 3 1 = 0x0) ∧
      (encodeLedPayload p q).extractLsb' 4 3 = p ∧ (encodeLedPayload p q).extractLsb' 0 3 = q := by
    decide
  obtain ⟨zeros, hx, hy⟩ := layout xr yr
  rw [decodeLedPayload, if_pos zeros, hx, hy]

/-- An accepted LED payload is the encoding of the coordinates read from it. -/
theorem encodeLedPayload_of_zeros {b1 : Byte}
    (h : b1.extractLsb' 7 1 = 0x0 ∧ b1.extractLsb' 3 1 = 0x0) :
    encodeLedPayload (b1.extractLsb' 4 3) (b1.extractLsb' 0 3) = b1 := by
  revert b1
  decide

theorem decodeOutgoing_encode_row (a : BitVec 3) (d : Byte) :
    decodeOutgoing (Config.opcRow ++ (0x0 : BitVec 1) ++ a) d = .ok (.wRow a d) := by
  have high : (Config.opcRow ++ (0x0 : BitVec 1) ++ a).extractLsb' 3 5 = 0 :=
    BitVec.extractLsb'_append_eq_left
  rw [Machine.decodeOutgoing_row _ d high, BitVec.extractLsb'_append_eq_right]

theorem decodeOutgoing_encode_col (a : BitVec 3) (d : Byte) :
    decodeOutgoing (Config.opcCol ++ (0x0 : BitVec 1) ++ a) d = .ok (.wCol a d) := by
  have high : (Config.opcCol ++ (0x0 : BitVec 1) ++ a).extractLsb' 3 5 = 0x10 :=
    BitVec.extractLsb'_append_eq_left
  rw [Machine.decodeOutgoing_col _ d high, BitVec.extractLsb'_append_eq_right]

/-- A byte is the five bits above its low three, and those three. -/
theorem append_low_three {b : Byte} {k : BitVec 5} (h : b.extractLsb' 3 5 = k) :
    k ++ b.extractLsb' 0 3 = b := by
  rw [← h]
  exact BitVec.extractLsb'_append_extractLsb'

theorem encode_of_decodeLedPayload {mk : BitVec 3 → BitVec 3 → Instr} {b0 b1 : Byte} {i : Instr}
    (henc : ∀ xr yr, encode (mk xr yr) = .outgoing b0 (encodeLedPayload xr yr))
    (h : decodeLedPayload mk b1 = .ok i) : encode i = .outgoing b0 b1 := by
  unfold decodeLedPayload at h
  split at h
  next zeros =>
    cases h
    rw [henc, encodeLedPayload_of_zeros zeros]
  next => cases h

/-- R49 to R51, read backwards: no bit of an accepted outgoing word is dropped. -/
theorem encode_of_decodeOutgoing {b0 b1 : Byte} {i : Instr} (h : decodeOutgoing b0 b1 = .ok i) :
    encode i = .outgoing b0 b1 := by
  unfold decodeOutgoing at h
  split_ifs at h with intensity ledOn ledOff row col
  · cases h
    rw [intensity]
    rfl
  · exact encode_of_decodeLedPayload (fun _ _ => by rw [ledOn]; rfl) h
  · exact encode_of_decodeLedPayload (fun _ _ => by rw [ledOff]; rfl) h
  · cases h
    rw [encode, append_low_three row]
  · cases h
    rw [encode, append_low_three col]

/-! ### Incoming words (R52, R57, R60) -/

/-- Byte 0 of an incoming word is its family and its low nibble. -/
theorem append_low_nibble {b : Byte} {fam : Nibble} (h : b.extractLsb' 4 4 = fam) :
    fam ++ b.extractLsb' 0 4 = b := by
  rw [← h]
  exact BitVec.extractLsb'_append_extractLsb'

/-- The families of the tolerated ranges by their leading bits (R60). -/
theorem unknownFamily_bits (fam : Nibble) :
    (fam.extractLsb' 1 3 = 0x1 → (0x1 : BitVec 3) ++ fam.extractLsb' 0 1 = fam) ∧
    (fam.extractLsb' 2 2 = 0x1 → (0x1 : BitVec 2) ++ fam.extractLsb' 0 2 = fam) ∧
    (fam ≠ Config.famDown → fam ≠ Config.famUp → fam.extractLsb' 1 3 ≠ 0x1 →
      fam.extractLsb' 2 2 ≠ 0x1 → (0x1 : BitVec 1) ++ fam.extractLsb' 0 3 = fam) := by
  revert fam
  decide

/-- R52, R60, read backwards: no bit of an incoming word is dropped. -/
theorem encode_decodeIncoming (b0 b1 : Byte) : encode (decodeIncoming b0 b1) = .incoming b0 b1 := by
  have payload : b1.extractLsb' 4 4 ++ b1.extractLsb' 0 4 = b1 := append_low_nibble rfl
  obtain ⟨range23, range47, range8F⟩ := unknownFamily_bits (b0.extractLsb' 4 4)
  simp only [decodeIncoming]
  split_ifs with down up is23 is47
  · rw [encode, append_low_nibble down, payload]
  · rw [encode, append_low_nibble up, payload]
  · rw [encode, range23 is23, append_low_nibble rfl]
  · rw [encode, range47 is47, append_low_nibble rfl]
  · rw [encode, range8F down up is23 is47, append_low_nibble rfl]

/-- The decoder on a byte 0 that is put together from its two nibbles. -/
theorem decodeIncoming_append (fam low : Nibble) (b1 : Byte) :
    decodeIncoming (fam ++ low) b1 =
      if fam = Config.famDown then .eDown low (b1.extractLsb' 4 4) (b1.extractLsb' 0 4)
      else if fam = Config.famUp then .eUp low (b1.extractLsb' 4 4) (b1.extractLsb' 0 4)
      else if fam.extractLsb' 1 3 = 0x1 then .eUnknown23 (fam.extractLsb' 0 1) low b1
      else if fam.extractLsb' 2 2 = 0x1 then .eUnknown47 (fam.extractLsb' 0 2) low b1
      else .eUnknown8F (fam.extractLsb' 0 3) low b1 := by
  have high : (fam ++ low).extractLsb' 4 4 = fam := BitVec.extractLsb'_append_eq_left
  have rest : (fam ++ low).extractLsb' 0 4 = low := BitVec.extractLsb'_append_eq_right
  rw [decodeIncoming, high, rest]

theorem decodeIncoming_encode_down (low xd yd : Nibble) :
    decodeIncoming (Config.famDown ++ low) (xd ++ yd) = .eDown low xd yd := by
  rw [decodeIncoming_append, if_pos rfl, BitVec.extractLsb'_append_eq_left,
    BitVec.extractLsb'_append_eq_right]

theorem decodeIncoming_encode_up (low xd yd : Nibble) :
    decodeIncoming (Config.famUp ++ low) (xd ++ yd) = .eUp low xd yd := by
  rw [decodeIncoming_append, if_neg (by decide), if_pos rfl, BitVec.extractLsb'_append_eq_left,
    BitVec.extractLsb'_append_eq_right]

theorem decodeIncoming_encode_unknown23 (f : BitVec 1) (low : Nibble) (p : Byte) :
    decodeIncoming ((0x1 : BitVec 3) ++ f ++ low) p = .eUnknown23 f low p := by
  have notButton : (0x1 : BitVec 3) ++ f ≠ Config.famDown ∧ (0x1 : BitVec 3) ++ f ≠ Config.famUp := by
    revert f; decide
  rw [decodeIncoming_append, if_neg notButton.1, if_neg notButton.2,
    if_pos BitVec.extractLsb'_append_eq_left, BitVec.extractLsb'_append_eq_right]

theorem decodeIncoming_encode_unknown47 (f : BitVec 2) (low : Nibble) (p : Byte) :
    decodeIncoming ((0x1 : BitVec 2) ++ f ++ low) p = .eUnknown47 f low p := by
  have notBefore : (0x1 : BitVec 2) ++ f ≠ Config.famDown ∧ (0x1 : BitVec 2) ++ f ≠ Config.famUp ∧
      ((0x1 : BitVec 2) ++ f).extractLsb' 1 3 ≠ 0x1 := by
    revert f; decide
  obtain ⟨notDown, notUp, not23⟩ := notBefore
  rw [decodeIncoming_append, if_neg notDown, if_neg notUp, if_neg not23,
    if_pos BitVec.extractLsb'_append_eq_left, BitVec.extractLsb'_append_eq_right]

theorem decodeIncoming_encode_unknown8F (f : BitVec 3) (low : Nibble) (p : Byte) :
    decodeIncoming ((0x1 : BitVec 1) ++ f ++ low) p = .eUnknown8F f low p := by
  have notBefore : (0x1 : BitVec 1) ++ f ≠ Config.famDown ∧ (0x1 : BitVec 1) ++ f ≠ Config.famUp ∧
      ((0x1 : BitVec 1) ++ f).extractLsb' 1 3 ≠ 0x1 ∧
      ((0x1 : BitVec 1) ++ f).extractLsb' 2 2 ≠ 0x1 := by
    revert f; decide
  obtain ⟨notDown, notUp, not23, not47⟩ := notBefore
  rw [decodeIncoming_append, if_neg notDown, if_neg notUp, if_neg not23, if_neg not47,
    BitVec.extractLsb'_append_eq_right]

/-! ### Both ways -/

/-- R46, R49 to R52: the decoder undoes the encoder, row by row. -/
theorem decode_encode (i : Instr) : decode (encode i) = .ok i := by
  cases i with
  | unrecognizedAB low => exact decode_encode_unrecognizedAB low
  | unrecognizedCF low => exact decode_encode_unrecognizedCF low
  | wLedOn xr yr =>
    exact (Machine.decodeOutgoing_ledOn _).trans (decodeLedPayload_encodeLedPayload _ xr yr)
  | wLedOff xr yr =>
    exact (Machine.decodeOutgoing_ledOff _).trans (decodeLedPayload_encodeLedPayload _ xr yr)
  | wRow a d => exact decodeOutgoing_encode_row a d
  | wCol a d => exact decodeOutgoing_encode_col a d
  | wIntensity v => exact Machine.decodeOutgoing_intensity v
  | eDown low xd yd => exact congrArg _ (decodeIncoming_encode_down low xd yd)
  | eUp low xd yd => exact congrArg _ (decodeIncoming_encode_up low xd yd)
  | eUnknown23 f low p => exact congrArg _ (decodeIncoming_encode_unknown23 f low p)
  | eUnknown47 f low p => exact congrArg _ (decodeIncoming_encode_unknown47 f low p)
  | eUnknown8F f low p => exact congrArg _ (decodeIncoming_encode_unknown8F f low p)
  | _ => rfl

/-- An outgoing word is an instruction exactly when it is its encoding. -/
theorem decodeOutgoing_eq_ok_iff {b0 b1 : Byte} {i : Instr} :
    decodeOutgoing b0 b1 = .ok i ↔ encode i = .outgoing b0 b1 :=
  ⟨encode_of_decodeOutgoing, fun h => (congrArg decode h).symm.trans (decode_encode i)⟩

/-- The same for an incoming word. -/
theorem decodeIncoming_eq_iff {b0 b1 : Byte} {i : Instr} :
    decodeIncoming b0 b1 = i ↔ encode i = .incoming b0 b1 := by
  refine ⟨fun h => h ▸ encode_decodeIncoming b0 b1, fun h => ?_⟩
  exact Except.ok.inj ((congrArg decode h).symm.trans (decode_encode i))

/-! ### The rows of the opcode table as images of the encoder (R49 to R52, R56, R60) -/

theorem append_eq_append_iff {w v : Nat} {x x' : BitVec w} {y y' : BitVec v} :
    x ++ y = x' ++ y' ↔ x = x' ∧ y = y' := by
  refine ⟨fun h => ⟨?_, ?_⟩, fun ⟨hx, hy⟩ => by rw [hx, hy]⟩
  · have high := congrArg (BitVec.extractLsb' v w) h
    rwa [BitVec.extractLsb'_append_eq_left, BitVec.extractLsb'_append_eq_left] at high
  · have low := congrArg (BitVec.extractLsb' 0 v) h
    rwa [BitVec.extractLsb'_append_eq_right, BitVec.extractLsb'_append_eq_right] at low

/-- What can stand before given leading bits is what has them. -/
theorem exists_append_eq_iff {w v : Nat} {x : BitVec w} {b : BitVec (w + v)} :
    (∃ y : BitVec v, x ++ y = b) ↔ b.extractLsb' v w = x := by
  refine ⟨fun ⟨y, h⟩ => h ▸ BitVec.extractLsb'_append_eq_left, fun h => ⟨b.extractLsb' 0 v, ?_⟩⟩
  rw [← h]
  exact BitVec.extractLsb'_append_extractLsb'

/-- A mask of leading ones looks at the leading bits. -/
theorem leading_match_iff {w v : Nat} (k : BitVec w) (b : BitVec (w + v)) :
    b &&& (BitVec.allOnes w ++ 0#v) = k ++ 0#v ↔ b.extractLsb' v w = k := by
  obtain ⟨low, split⟩ := exists_append_eq_iff.2 (rfl : b.extractLsb' v w = b.extractLsb' v w)
  nth_rw 1 [← split]
  rw [BitVec.and_append, BitVec.and_allOnes, BitVec.and_zero, append_eq_append_iff, and_iff_left rfl]

/-- A match and mask over a word is one over each byte (R7). -/
theorem word_match_iff {w : Nat} (b0 m0 k0 : BitVec w) (b1 m1 k1 : Byte) :
    (b0 ++ b1) &&& (m0 ++ m1) = k0 ++ k1 ↔ b0 &&& m0 = k0 ∧ b1 &&& m1 = k1 := by
  rw [BitVec.and_append, append_eq_append_iff]

/-- The same for a mask of leading ones within byte 0. -/
theorem word_leading_match_iff {w v : Nat} (k : BitVec w) (b0 : BitVec (w + v)) (b1 : Byte) :
    (b0 ++ b1) &&& (BitVec.allOnes w ++ 0#v ++ (0x00 : Byte)) = k ++ 0#v ++ (0x00 : Byte) ↔
      b0.extractLsb' v w = k := by
  have free : b1 &&& (0x00 : Byte) = 0x00 := BitVec.and_zero
  rw [word_match_iff, leading_match_iff, free, and_iff_left rfl]

/-- R49: the LED payloads are the bytes with bits 7 and 3 clear. -/
theorem exists_encodeLedPayload_iff (b1 : Byte) :
    (∃ xr yr, encodeLedPayload xr yr = b1) ↔ b1 &&& 0x88 = 0x00 := by
  have clear : ∀ xr yr, encodeLedPayload xr yr &&& 0x88 = 0x00 := by decide
  have zeros : ∀ b : Byte, b &&& 0x88 = 0x00 →
      b.extractLsb' 7 1 = 0x0 ∧ b.extractLsb' 3 1 = 0x0 := by decide
  exact ⟨fun ⟨xr, yr, h⟩ => h ▸ clear xr yr,
    fun h => ⟨_, _, encodeLedPayload_of_zeros (zeros b1 h)⟩⟩

/-- The words of an LED row, whose byte 0 is `k`. -/
theorem ledWord_match_iff (k b0 b1 : Byte) :
    (∃ xr yr, k = b0 ∧ encodeLedPayload xr yr = b1) ↔
      (b0 ++ b1) &&& 0xFF88#16 = k ++ (0x00 : Byte) := by
  have whole : b0 &&& 0xFF = b0 := BitVec.and_allOnes
  refine Iff.trans ?_ (word_match_iff b0 0xFF k b1 0x88 0x00).symm
  rw [whole, eq_comm (a := b0)]
  simp only [exists_and_left, exists_encodeLedPayload_iff]

theorem ledOn_row_iff (b0 b1 : Byte) :
    (∃ xr yr, decodeOutgoing b0 b1 = .ok (.wLedOn xr yr)) ↔ (b0 ++ b1) &&& 0xFF88 = 0x2000#16 := by
  simp only [decodeOutgoing_eq_ok_iff, encode, EncUnit.outgoing.injEq]
  exact ledWord_match_iff 0x20 b0 b1

theorem ledOff_row_iff (b0 b1 : Byte) :
    (∃ xr yr, decodeOutgoing b0 b1 = .ok (.wLedOff xr yr)) ↔ (b0 ++ b1) &&& 0xFF88 = 0x1000#16 := by
  simp only [decodeOutgoing_eq_ok_iff, encode, EncUnit.outgoing.injEq]
  exact ledWord_match_iff 0x10 b0 b1

theorem rowWrite_row_iff (b0 b1 : Byte) :
    (∃ a d, decodeOutgoing b0 b1 = .ok (.wRow a d)) ↔ (b0 ++ b1) &&& 0xF800 = 0x0000#16 := by
  simp only [decodeOutgoing_eq_ok_iff, encode, EncUnit.outgoing.injEq, exists_eq_right]
  exact exists_append_eq_iff.trans (word_leading_match_iff (v := 3) 0x00#5 b0 b1).symm

theorem colWrite_row_iff (b0 b1 : Byte) :
    (∃ a d, decodeOutgoing b0 b1 = .ok (.wCol a d)) ↔ (b0 ++ b1) &&& 0xF800 = 0x8000#16 := by
  simp only [decodeOutgoing_eq_ok_iff, encode, EncUnit.outgoing.injEq, exists_eq_right]
  exact exists_append_eq_iff.trans (word_leading_match_iff (v := 3) 0x10#5 b0 b1).symm

theorem intensity_row_iff (b0 b1 : Byte) :
    (∃ v, decodeOutgoing b0 b1 = .ok (.wIntensity v)) ↔ (b0 ++ b1) &&& 0xFF00 = 0x0A00#16 := by
  simp only [decodeOutgoing_eq_ok_iff, encode, EncUnit.outgoing.injEq, exists_eq_right]
  refine Iff.trans ?_ (word_leading_match_iff (v := 0) 0x0A#8 b0 b1).symm
  rw [BitVec.extractLsb'_eq_self, eq_comm]
  rfl

/-- R56: the values byte 0 of an outgoing word can have. -/
theorem byte0_of_outgoing {b0 b1 : Byte} {i : Instr} (h : encode i = .outgoing b0 b1) :
    b0.toNat ∈ [0x00, 0x01, 0x02, 0x03, 0x04, 0x05, 0x06, 0x07, 0x0A, 0x10, 0x20,
      0x80, 0x81, 0x82, 0x83, 0x84, 0x85, 0x86, 0x87] := by
  cases i with
  | wLedOn | wLedOff | wIntensity => cases h; decide
  | wRow a => cases h; revert a; decide
  | wCol a => cases h; revert a; decide
  | _ => cases h

/-- A button word of a family is any word whose byte 0 has it. -/
theorem buttonWord_match_iff (fam : Nibble) (b0 b1 : Byte) :
    (∃ low xd yd : Nibble, fam ++ low = b0 ∧ xd ++ yd = b1) ↔ b0.extractLsb' 4 4 = fam := by
  have payload : ∃ xd yd : Nibble, xd ++ yd = b1 := ⟨_, _, append_low_nibble rfl⟩
  simp only [exists_and_left, payload, and_true]
  exact exists_append_eq_iff

theorem buttonDown_row_iff (b0 b1 : Byte) :
    (∃ low xd yd, decodeIncoming b0 b1 = .eDown low xd yd) ↔ (b0 ++ b1) &&& 0xF000 = 0x0000#16 := by
  simp only [decodeIncoming_eq_iff, encode, EncUnit.incoming.injEq, buttonWord_match_iff]
  exact (word_leading_match_iff (v := 4) 0x0#4 b0 b1).symm

theorem buttonUp_row_iff (b0 b1 : Byte) :
    (∃ low xd yd, decodeIncoming b0 b1 = .eUp low xd yd) ↔ (b0 ++ b1) &&& 0xF000 = 0x1000#16 := by
  simp only [decodeIncoming_eq_iff, encode, EncUnit.incoming.injEq, buttonWord_match_iff]
  exact (word_leading_match_iff (v := 4) 0x1#4 b0 b1).symm

/-- A word of a tolerated range is any word whose family has the range's leading bits `k`. -/
theorem unknownWord_match_iff {w v : Nat} (k : BitVec w) (b0 : BitVec (w + v + 4)) :
    (∃ (f : BitVec v) (low : Nibble), k ++ f ++ low = b0) ↔ b0.extractLsb' (4 + v) w = k := by
  have family : (b0.extractLsb' 4 (w + v)).extractLsb' v w = b0.extractLsb' (4 + v) w :=
    BitVec.eq_of_getLsbD_eq fun i hi => by
      simp [hi, show v + i < w + v by omega, Nat.add_assoc]
  rw [← family, ← exists_append_eq_iff]
  exact exists_congr fun f => exists_append_eq_iff.trans eq_comm

theorem unknown23_row_iff (b0 b1 : Byte) :
    (∃ f low p, decodeIncoming b0 b1 = .eUnknown23 f low p) ↔ (b0 ++ b1) &&& 0xE000 = 0x2000#16 := by
  simp only [decodeIncoming_eq_iff, encode, EncUnit.incoming.injEq, exists_eq_right]
  exact (unknownWord_match_iff _ _).trans (word_leading_match_iff (v := 5) 0x1#3 b0 b1).symm

theorem unknown47_row_iff (b0 b1 : Byte) :
    (∃ f low p, decodeIncoming b0 b1 = .eUnknown47 f low p) ↔ (b0 ++ b1) &&& 0xC000 = 0x4000#16 := by
  simp only [decodeIncoming_eq_iff, encode, EncUnit.incoming.injEq, exists_eq_right]
  exact (unknownWord_match_iff _ _).trans (word_leading_match_iff (v := 6) 0x1#2 b0 b1).symm

theorem unknown8F_row_iff (b0 b1 : Byte) :
    (∃ f low p, decodeIncoming b0 b1 = .eUnknown8F f low p) ↔ (b0 ++ b1) &&& 0x8000 = 0x8000#16 := by
  simp only [decodeIncoming_eq_iff, encode, EncUnit.incoming.injEq, exists_eq_right]
  exact (unknownWord_match_iff _ _).trans (word_leading_match_iff (v := 7) 0x1#1 b0 b1).symm

theorem outgoingAccepts_iff (b0 b1 : Byte) :
    outgoingAccepts b0 b1 = true ↔ ∃ i, decodeOutgoing b0 b1 = .ok i := by
  cases h : decodeOutgoing b0 b1 <;> simp [outgoingAccepts, h]

end Sys2Proof

namespace Sys2Proof.Proofs

/-- Settles O5 (R46, R49 to R52): row by row, `decode_encode`. -/
theorem decodeAfterEncodeIsTheInstruction : Obligations.DecodeAfterEncodeIsTheInstruction :=
  decode_encode

/-- Settles O6 (R49 to R52): each branch of the two word decoders keeps all 16 bits. -/
theorem encodeAfterDecodeIsTheWord : Obligations.EncodeAfterDecodeIsTheWord := by
  unfold Obligations.EncodeAfterDecodeIsTheWord
  intro b0 b1 i
  refine ⟨encode_of_decodeOutgoing, fun h => ?_⟩
  rw [← Except.ok.inj h]
  exact encode_decodeIncoming b0 b1

/-- Settles O7 (R49 to R51, R56): a word decodes to a row's instruction exactly when it is the encoding of
one, and the encodings of a row are the words its mask and match describe. -/
theorem outgoingWordsAreTheTableRows : Obligations.OutgoingWordsAreTheTableRows := by
  unfold Obligations.OutgoingWordsAreTheTableRows
  refine fun b0 b1 => ⟨ledOn_row_iff b0 b1, ledOff_row_iff b0 b1, rowWrite_row_iff b0 b1,
    colWrite_row_iff b0 b1, intensity_row_iff b0 b1, fun h => ?_⟩
  obtain ⟨i, hi⟩ := (outgoingAccepts_iff b0 b1).1 h
  exact byte0_of_outgoing (encode_of_decodeOutgoing hi)

/-- Settles O8 (R52, R57, R60): the same for the incoming rows. -/
theorem incomingWordsAreTheTableRows : Obligations.IncomingWordsAreTheTableRows := by
  unfold Obligations.IncomingWordsAreTheTableRows
  exact fun b0 b1 => ⟨buttonDown_row_iff b0 b1, buttonUp_row_iff b0 b1, unknown23_row_iff b0 b1,
    unknown47_row_iff b0 b1, unknown8F_row_iff b0 b1⟩

/-- Settles O4 (R46, R49 to R52): the accepted units are encodings; the one word rejected is checked. -/
theorem writtenOutWordsDecode : Obligations.WrittenOutWordsDecode := by
  unfold Obligations.WrittenOutWordsDecode
  exact ⟨decode_encode (.cmdLed 3 4 true), decode_encode (.cmdOpen 0x885),
    decode_encode (.unrecognizedAB 1), decode_encode (.wLedOn 3 4), decode_encode (.wIntensity 0x0F),
    decode_encode (.wCol 5 0x0F), rfl, decode_encode (.eUp 0xA 6 5), decode_encode (.eUnknown23 0 0 0x34)⟩

end Sys2Proof.Proofs


/-! Proofs: what each instruction leaves of the state, said once (spec/10_state.md section 5,
spec/41_encoder_commands.md R77). The words it offers, and whether it answers as a command, adds to the
accumulators as a wire word, or offers nothing; then the elements only CLEAR and FRAME write. -/

namespace Sys2Proof.Machine

/-! ### Operations that leave the other fields alone -/

@[simp] theorem emitMany_lat (ws : List (Byte × Byte)) (s : State) : (emitMany ws s).lat = s.lat :=
  (emitMany_spec ws s).2.2.2.2.1

@[simp] theorem emitMany_resp (ws : List (Byte × Byte)) (s : State) :
    (emitMany ws s).resp = s.resp := (emitMany_spec ws s).2.2.2.2.2.1

@[simp] theorem emitMany_host (ws : List (Byte × Byte)) (s : State) :
    (emitMany ws s).host = s.host := (emitMany_spec ws s).2.2.2.2.2.2.1

@[simp] theorem emitOne_wb (w : Byte × Byte) (s : State) : (emitOne w s).wb = s.wb := rfl
@[simp] theorem emitOne_idx (w : Byte × Byte) (s : State) : (emitOne w s).idx = s.idx := rfl
@[simp] theorem emitOne_lat (w : Byte × Byte) (s : State) : (emitOne w s).lat = s.lat := rfl

@[simp] theorem buttonWord_wb (k : EvKind) (b0 : Byte) (xd yd : Nibble) (s : State) :
    (buttonWord k b0 xd yd s).wb = s.wb := rfl
@[simp] theorem buttonWord_idx (k : EvKind) (b0 : Byte) (xd yd : Nibble) (s : State) :
    (buttonWord k b0 xd yd s).idx = s.idx := rfl
@[simp] theorem buttonWord_lat (k : EvKind) (b0 : Byte) (xd yd : Nibble) (s : State) :
    (buttonWord k b0 xd yd s).lat = s.lat := rfl

@[simp] theorem droppedWord_wb (b0 b1 : Byte) (s : State) : (droppedWord b0 b1 s).wb = s.wb := rfl
@[simp] theorem droppedWord_idx (b0 b1 : Byte) (s : State) : (droppedWord b0 b1 s).idx = s.idx := rfl
@[simp] theorem droppedWord_lat (b0 b1 : Byte) (s : State) : (droppedWord b0 b1 s).lat = s.lat := rfl

@[simp] theorem eventOfAnswer_wb (a : ReadAnswer) (s : State) :
    (eventOfAnswer a s).wb = s.wb := by rw [eventOfAnswer_eq]
@[simp] theorem eventOfAnswer_idx (a : ReadAnswer) (s : State) :
    (eventOfAnswer a s).idx = s.idx := by rw [eventOfAnswer_eq]
@[simp] theorem eventOfAnswer_lat (a : ReadAnswer) (s : State) :
    (eventOfAnswer a s).lat = s.lat := by rw [eventOfAnswer_eq]

/-! ### The words an instruction offers -/

/-- The words an instruction offers (R78 to R89; for a wire word by itself log 6). -/
def wordsOf (c : Cfg) : Instr → List (Byte × Byte)
  | .cmdClear _ => clearWords c.rows.toNat
  | .cmdIntensity v => [(Config.opbIntensity, v)]
  | .cmdLed x y on => [ledWord c x y on]
  | .cmdRow a d => [lineWord c .row a d]
  | .cmdCol a d => [lineWord c .col a d]
  | .cmdFrame xo yo f => frameWords c (frameBytes (frameSource Config.frameTransform c xo yo f))
  | .wLedOn xr yr => [(opcodeByte Config.opcLedOn, ledPayload (xr.setWidth 8) (yr.setWidth 8))]
  | .wLedOff xr yr => [(opcodeByte Config.opcLedOff, ledPayload (xr.setWidth 8) (yr.setWidth 8))]
  | .wRow a d => [(lineByte0 Config.opcRow (a.setWidth 8), d)]
  | .wCol a d => [(lineByte0 Config.opcCol (a.setWidth 8), d)]
  | .wIntensity v => [(Config.opbIntensity, v)]
  | _ => []

/-- CLEAR and FRAME offer the most words: one for each row, and 8. -/
theorem length_wordsOf_le (c : Cfg) (i : Instr) :
    (wordsOf c i).length ≤ max c.rows.toNat 8 := by
  cases i with
  | cmdClear | cmdFrame => simp [wordsOf, clearWords, frameWords]
  | _ => simp [wordsOf]

theorem length_wordsOf_lt (c : Cfg) (i : Instr) : (wordsOf c i).length < 16 := by
  have bound := length_wordsOf_le c i
  have rows := c.rows.isLt
  omega

/-- A line byte 0 is a word of its row whatever the payload. -/
theorem outgoingAccepts_lineByte0_row (a d : Byte) :
    outgoingAccepts (lineByte0 Config.opcRow a) d = true :=
  outgoingAccepts_of_ok (decodeOutgoing_row _ d (lineByte0_row a).1)

theorem outgoingAccepts_lineByte0_col (a d : Byte) :
    outgoingAccepts (lineByte0 Config.opcCol a) d = true :=
  outgoingAccepts_of_ok (decodeOutgoing_col _ d (lineByte0_col a).1)

theorem outgoingAccepts_intensity (v : Byte) : outgoingAccepts Config.opbIntensity v = true :=
  outgoingAccepts_of_ok (decodeOutgoing_intensity v)

/-- R48, R58, R90: with at most 8 rows every word offered has one of the formats of R49 to R51. -/
theorem outgoingAccepts_of_mem_wordsOf {c : Cfg} {i : Instr} {w : Byte × Byte}
    (hrows : c.rows.toNat ≤ 8) (hw : w ∈ wordsOf c i) : outgoingAccepts w.1 w.2 = true := by
  cases i with
  | cmdClear =>
    obtain ⟨k, hk, rfl⟩ := List.mem_map.1 hw
    have hlt := List.mem_range.1 hk
    exact outgoingAccepts_rawRow k (by omega)
  | cmdFrame =>
    obtain ⟨k, -, rfl⟩ := List.mem_map.1 hw
    exact outgoingAccepts_lineWord _ _ _ _
  | cmdLed => cases List.mem_singleton.1 hw; exact outgoingAccepts_ledWord _ _ _ _
  | cmdRow | cmdCol => cases List.mem_singleton.1 hw; exact outgoingAccepts_lineWord _ _ _ _
  | cmdIntensity | wIntensity => cases List.mem_singleton.1 hw; exact outgoingAccepts_intensity _
  | wLedOn =>
    cases List.mem_singleton.1 hw
    exact outgoingAccepts_of_ok ((decodeOutgoing_ledOn _).trans (decodeLedPayload_ledPayload _ _ _))
  | wLedOff =>
    cases List.mem_singleton.1 hw
    exact outgoingAccepts_of_ok ((decodeOutgoing_ledOff _).trans (decodeLedPayload_ledPayload _ _ _))
  | wRow => cases List.mem_singleton.1 hw; exact outgoingAccepts_lineByte0_row _ _
  | wCol => cases List.mem_singleton.1 hw; exact outgoingAccepts_lineByte0_col _ _
  | _ => cases hw

/-! ### The three ways an instruction treats them -/

/-- The frame of R77 around a run of words, whatever then becomes of `WB` and `IDX`. -/
theorem epilogue_emitMany_commandEmits (ws : List (Byte × Byte)) (s : State) (m : Memory)
    (k : BitVec 4) :
    CommandEmits ws s (epilogue { emitMany ws (prologue s) with wb := m, idx := k }) :=
  commandEmits_of ws s _ (by simp) (by simp) (by simp) (by simp) (by simp) rfl rfl rfl

/-- An encoder command offers its words within the frame of R77. -/
theorem exec_commandEmits {i : Instr} {s t : State} (hi : isEncoderCommand i = true)
    (h : exec i s = .next t) : CommandEmits (wordsOf s.cfg i) s t := by
  have he := exec_ends h
  cases i with
  | cmdClear =>
    obtain ⟨-, rfl⟩ := he
    exact epilogue_emitMany_commandEmits _ s _ _
  | cmdMode =>
    obtain ⟨-, rfl⟩ := he
    exact epilogue_emitMany_commandEmits [] s s.wb s.idx
  | cmdIntensity | cmdLed | cmdRow | cmdCol =>
    obtain ⟨-, rfl⟩ := he
    exact (emitOne_answers _ s).emits
  | cmdFrame =>
    obtain ⟨-, m, rfl, -⟩ := he
    exact epilogue_emitMany_commandEmits _ s m 8
  | _ => cases hi

/-- `emit` alone: what a wire word by itself leaves (log 6). -/
theorem emit_wordEmitted (w : Byte × Byte) (s : State) : WordEmitted w s (emit w s) where
  offered := emitMany_offered [w] s
  cnt := by simp [cntAfter, writeAnswers, nextWrites, totalAccepted]
  txf := by simp [txfAfter, writeAnswers, nextWrites]
  idx := rfl
  resp := rfl
  session := ⟨rfl, rfl, rfl, rfl⟩
  buffer := fun _ => rfl

/-- What an instruction that offers no word leaves of the response and the record of calls: it answers
with a status that is not the reserved one and `COUNT = 0`. -/
structure AnswersWithoutWords (s t : State) : Prop where
  calls : ∃ new, t.tr.calls = s.tr.calls ++ new ∧ ∀ b0 b1 n, Call.txWrite b0 b1 n ∉ new
  status : t.resp.status ≠ 3
  count : t.resp.count = 0

/-- What an instruction that answers a next state has done with its words. -/
inductive Effect (s t : State) : Instr → Prop where
  | command {i : Instr} (opened : s.phase = .opened) (emits : CommandEmits (wordsOf s.cfg i) s t) :
      Effect s t i
  | word {i : Instr} {w : Byte × Byte} (opened : s.phase = .opened) (words : wordsOf s.cfg i = [w])
      (emitted : WordEmitted w s t) : Effect s t i
  | answer {i : Instr} (answers : AnswersWithoutWords s t) : Effect s t i

theorem respond_answersWithoutWords {status : BitVec 2} {s t : State} {new : List Call}
    (hs : status ≠ 3) (hc : t.tr.calls = s.tr.calls ++ new)
    (hn : ∀ b0 b1 n, Call.txWrite b0 b1 n ∉ new) :
    AnswersWithoutWords s (respond status 0 t) :=
  ⟨⟨new, hc, hn⟩, hs, rfl⟩

theorem statusOk_ne_reserved : statusOk ≠ 3 := by decide

theorem eventOfAnswer_count (a : ReadAnswer) (s : State) : (eventOfAnswer a s).resp.count = 0 := by
  cases a with
  | nothing | oneByte => rfl
  | word b0 b1 =>
    change (eventOfWord b0 b1 s).resp.count = 0
    obtain ⟨k, h⟩ | h := eventOfWord_cases b0 b1 s <;> rw [h] <;> rfl

theorem evt_answersWithoutWords (a : ReadAnswer) (s : State) :
    AnswersWithoutWords s (eventOfAnswer a (recordRead a (drawRead s).2)) := by
  have calls := congrArg Transport.calls (eventOfAnswer_answerTaken a s).tr
  refine ⟨⟨[.rxRead a], calls, by simp⟩, ?_, eventOfAnswer_count _ _⟩
  rw [eventOfAnswer_status]
  exact statusOk_ne_reserved

theorem buttonWord_answersWithoutWords (k : EvKind) (b0 : Byte) (xd yd : Nibble) (s : State) :
    AnswersWithoutWords s (buttonWord k b0 xd yd s) :=
  ⟨⟨[.rxRead (.word b0 (xd ++ yd))], rfl, by simp⟩, statusOk_ne_reserved, rfl⟩

theorem droppedWord_answersWithoutWords (b0 b1 : Byte) (s : State) :
    AnswersWithoutWords s (droppedWord b0 b1 s) :=
  respond_answersWithoutWords (new := [.rxRead (.word b0 b1)]) (by decide) rfl (by simp)

theorem failWith_answersWithoutWords {status : BitVec 2} (h : status ≠ 3) (s : State) :
    AnswersWithoutWords s (failWith status s) :=
  respond_answersWithoutWords (new := []) h (List.append_nil _).symm (by simp)

theorem open_answersWithoutWords {c : BitVec 12} {s t : State} (h : Ends s t (.cmdOpen c)) :
    AnswersWithoutWords s t := by
  obtain ⟨-, -, rfl⟩ := h
  split_ifs
  · exact respond_answersWithoutWords (new := [.txOpen (nextOpen s)]) (by decide) rfl (by simp)
  · exact respond_answersWithoutWords (new := [.txOpen (nextOpen s)]) (by decide) rfl (by simp)

theorem close_answersWithoutWords {s t : State} (h : Ends s t .cmdClose) :
    AnswersWithoutWords s t := by
  obtain ⟨-, rfl⟩ := h
  have status : statusOfAnswer (nextClose s) ≠ 3 := by cases nextClose s <;> decide
  exact respond_answersWithoutWords (new := [.txClose (nextClose s)]) status rfl (by simp)

/-- Read off `exec_ends`. -/
theorem exec_effect {i : Instr} {s t : State} (h : exec i s = .next t) : Effect s t i := by
  have he := exec_ends h
  cases i with
  | cmdClear | cmdIntensity | cmdMode | cmdLed | cmdRow | cmdCol | cmdFrame =>
    obtain ⟨opened, -⟩ := he
    exact .command opened (exec_commandEmits rfl h)
  | cmdOpen => exact .answer (open_answersWithoutWords he)
  | cmdClose => exact .answer (close_answersWithoutWords he)
  | cmdEvt =>
    obtain ⟨-, rfl⟩ := he
    exact .answer (evt_answersWithoutWords _ s)
  | unrecognizedAB | unrecognizedCF =>
    subst he
    exact .answer (failWith_answersWithoutWords (by decide) s)
  | wLedOn | wLedOff | wRow | wCol | wIntensity =>
    obtain ⟨opened, rfl⟩ := he
    exact .word opened rfl (emit_wordEmitted _ s)
  | eDown | eUp =>
    obtain ⟨-, rfl⟩ := he
    exact .answer (buttonWord_answersWithoutWords _ _ _ _ s)
  | eUnknown23 | eUnknown47 | eUnknown8F =>
    obtain ⟨-, rfl⟩ := he
    exact .answer (droppedWord_answersWithoutWords _ _ s)

/-! ### `WB`, `IDX` and the latches -/

/-- R17: no instruction writes the operand latches. -/
theorem exec_lat {i : Instr} {s t : State} (h : exec i s = .next t) : t.lat = s.lat := by
  have he := exec_ends h
  cases i with
  | cmdOpen =>
    obtain ⟨-, -, rfl⟩ := he
    split_ifs <;> rfl
  | cmdFrame =>
    obtain ⟨-, m, rfl, -⟩ := he
    simp
  | unrecognizedAB | unrecognizedCF => subst he; rfl
  | _ =>
    obtain ⟨-, rfl⟩ := he
    simp

/-- What the instruction `i` does to `WB` and `IDX` from `s` to `t` (R18, R20): CLEAR leaves `ROWS` in
`IDX`, FRAME leaves 8 there and a canonical buffer canonical; every other leaves both alone. -/
inductive BufferMove (s t : State) : Instr → Prop where
  | kept {i : Instr} (notClear : ∀ st, i ≠ .cmdClear st) (notFrame : ∀ xo yo f, i ≠ .cmdFrame xo yo f)
      (wb : t.wb = s.wb) (idx : t.idx = s.idx) : BufferMove s t i
  | clears {st : Bool} (opened : s.phase = .opened) (wb : t.wb = s.wb) (idx : t.idx = s.cfg.rows) :
      BufferMove s t (.cmdClear st)
  | frames {xo yo : Byte} {f : Bytes8} (wf : Memory.wf s.wb = true → Memory.wf t.wb = true)
      (idx : t.idx = 8) : BufferMove s t (.cmdFrame xo yo f)

@[simp] theorem emitMany_keeps_wb (ws : List (Byte × Byte)) (s : State) :
    (emitMany ws s).wb = s.wb := (emitMany_spec ws s).2.2.1

theorem exec_bufferMove {i : Instr} {s t : State} (h : exec i s = .next t) : BufferMove s t i := by
  have he := exec_ends h
  cases i with
  | cmdOpen =>
    obtain ⟨-, -, rfl⟩ := he
    exact .kept nofun nofun (by split_ifs <;> rfl) (by split_ifs <;> rfl)
  | cmdClear =>
    obtain ⟨opened, rfl⟩ := he
    exact .clears opened (by simp) rfl
  | cmdFrame =>
    obtain ⟨-, m, rfl, -, wf⟩ := he
    exact .frames wf rfl
  | unrecognizedAB | unrecognizedCF => subst he; exact .kept nofun nofun rfl rfl
  | _ =>
    obtain ⟨-, rfl⟩ := he
    exact .kept nofun nofun (by simp) (by simp)

/-- R20: no instruction but FRAME writes the buffer. -/
theorem exec_bufferKept {i : Instr} {s t : State} (h : exec i s = .next t)
    (hi : ∀ xo yo f, i ≠ .cmdFrame xo yo f) : BufferKept s t := by
  cases exec_bufferMove h with
  | kept _ _ wb => exact fun a => memRead_congr a wb
  | clears _ wb => exact fun a => memRead_congr a wb
  | frames => exact absurd rfl (hi _ _ _)

/-! ### The event latches (R22, log 11) -/

/-- A response without an event leaves the event latches as the state it is written to has them. -/
theorem respond_eventLatchesKept {status : BitVec 2} {n : Byte} {s u : State} (h : u.resp = s.resp) :
    EventLatchesKept s (respond status n u) := by
  exact ⟨by simp [h], by simp [h], by simp [h]⟩

theorem eventOfAnswer_eventLatchesKept {a : ReadAnswer} {s u : State} (hu : u.resp = s.resp)
    (h : (eventOfAnswer a u).resp.evValid = false) : EventLatchesKept s (eventOfAnswer a u) := by
  cases a with
  | nothing | oneByte => exact respond_eventLatchesKept hu
  | word b0 b1 =>
    change (eventOfWord b0 b1 u).resp.evValid = false at h
    change EventLatchesKept s (eventOfWord b0 b1 u)
    obtain ⟨k, he⟩ | he := eventOfWord_cases b0 b1 u
    · rw [he] at h
      cases h
    · rw [he]
      exact respond_eventLatchesKept hu

theorem exec_eventLatchesKept {i : Instr} {s t : State} (h : exec i s = .next t)
    (hv : t.resp.evValid = false) : EventLatchesKept s t := by
  have he := exec_ends h
  cases i with
  | cmdOpen =>
    obtain ⟨-, -, rfl⟩ := he
    split_ifs <;> exact respond_eventLatchesKept rfl
  | cmdClose | cmdIntensity | cmdMode | cmdLed | cmdRow | cmdCol =>
    obtain ⟨-, rfl⟩ := he
    exact respond_eventLatchesKept rfl
  | cmdEvt =>
    obtain ⟨-, rfl⟩ := he
    exact eventOfAnswer_eventLatchesKept rfl hv
  | cmdClear =>
    obtain ⟨-, rfl⟩ := he
    exact respond_eventLatchesKept (by simp)
  | cmdFrame =>
    obtain ⟨-, m, rfl, -⟩ := he
    exact respond_eventLatchesKept (by simp)
  | unrecognizedAB | unrecognizedCF =>
    subst he
    exact respond_eventLatchesKept rfl
  | wLedOn | wLedOff | wRow | wCol | wIntensity =>
    obtain ⟨-, rfl⟩ := he
    exact ⟨rfl, rfl, rfl⟩
  | eDown | eUp =>
    obtain ⟨-, rfl⟩ := he
    cases hv
  | eUnknown23 | eUnknown47 | eUnknown8F =>
    obtain ⟨-, rfl⟩ := he
    exact respond_eventLatchesKept rfl

/-! ### The transport is called only while it is held (R19, R40) -/

theorem exec_calls_held {i : Instr} {s t : State} (h : exec i s = .next t) :
    s.phase = .opened ∨ ((∃ c, i = .cmdOpen c) ∧ s.phase = .fresh) ∨ t.tr.calls = s.tr.calls := by
  have he := exec_ends h
  cases i with
  | cmdOpen c =>
    obtain ⟨fresh, -⟩ := he
    exact .inr (.inl ⟨⟨c, rfl⟩, fresh⟩)
  | unrecognizedAB | unrecognizedCF => exact .inr (.inr (by rw [he]; rfl))
  | _ =>
    obtain ⟨opened, -⟩ := he
    exact .inl opened

/-- From `s` to `t` the record of calls grew, by words out of `ws` if by any, and by those only in
`Open`. -/
def CallsWithin (ws : List (Byte × Byte)) (s t : State) : Prop :=
  ∃ new, t.tr.calls = s.tr.calls ++ new ∧
    ∀ b0 b1 n, Call.txWrite b0 b1 n ∈ new → s.phase = .opened ∧ (b0, b1) ∈ ws

theorem callsWithin_of_offered {ws : List (Byte × Byte)} {s t : State} (opened : s.phase = .opened)
    (ho : Offered ws s t) : CallsWithin ws s t := by
  refine ⟨_, ho.calls, fun b0 b1 n hn => ⟨opened, ?_⟩⟩
  rw [← List.map_uncurry_zip_eq_zipWith] at hn
  obtain ⟨⟨w, k⟩, hmem, heq⟩ := List.mem_map.1 hn
  cases heq
  exact (List.of_mem_zip hmem).1

theorem exec_callsWithin {i : Instr} {s t : State} (h : exec i s = .next t) :
    CallsWithin (wordsOf s.cfg i) s t := by
  cases exec_effect h with
  | command opened emits => exact callsWithin_of_offered opened emits.offered
  | word opened words emitted => exact words ▸ callsWithin_of_offered opened emitted.offered
  | answer answers =>
    obtain ⟨new, calls, none⟩ := answers.calls
    exact ⟨new, calls, fun b0 b1 n hn => absurd hn (none b0 b1 n)⟩

/-! ### The response's bounds (R21, R107) -/

theorem commandEmits_status_ne_reserved {ws : List (Byte × Byte)} {s t : State}
    (h : CommandEmits ws s t) : t.resp.status ≠ 3 := by
  rw [h.status]
  split_ifs <;> decide

theorem writeAnswers_length (k : Nat) (s : State) : (writeAnswers k s).length = k :=
  nextWrites_length k s.tr.writes s.tr.drawn

/-- R21: each word adds at most 2 to `COUNT`, so it does not overflow. -/
theorem commandEmits_count {ws : List (Byte × Byte)} {s t : State} (h : CommandEmits ws s t)
    (hlen : ws.length < 128) : t.resp.count.toNat = totalAccepted (writeAnswers ws.length s) := by
  have bound := totalAccepted_le (writeAnswers ws.length s)
  rw [writeAnswers_length] at bound
  rw [h.count, BitVec.toNat_ofNat, Nat.mod_eq_of_lt (by omega)]

theorem commandEmits_count_le {ws : List (Byte × Byte)} {s t : State} (h : CommandEmits ws s t)
    (hlen : ws.length ≤ 8) : t.resp.count.toNat ≤ 16 := by
  have bound := totalAccepted_le (writeAnswers ws.length s)
  rw [writeAnswers_length] at bound
  rw [commandEmits_count h (by omega)]
  omega

/-! ### The invariant -/

theorem legal_of_opened {s : State} (inv : EngineInv s) (h : s.phase = .opened) : s.cfg.Legal :=
  inv.cfgLegal (by simp [h])

theorem exec_cfgLegal {i : Instr} {s t : State} (inv : EngineInv s) (h : exec i s = .next t) :
    t.phase ≠ .fresh → t.cfg.Legal := by
  cases exec_sessionMove h with
  | kept phase cfg => exact fun ht => cfg ▸ inv.cfgLegal (phase ▸ ht)
  | opens _ legal _ _ cfg => exact fun _ => cfg ▸ legal
  | closes opened _ cfg => exact fun _ => cfg ▸ legal_of_opened inv opened

theorem exec_buffer_wf {i : Instr} {s t : State} (inv : EngineInv s) (h : exec i s = .next t) :
    Memory.wf t.wb = true := by
  cases exec_bufferMove h with
  | kept _ _ wb => exact wb ▸ inv.buffer
  | clears _ wb => exact wb ▸ inv.buffer
  | frames wf => exact wf inv.buffer

theorem exec_idx_le {i : Instr} {s t : State} (inv : EngineInv s) (h : exec i s = .next t) :
    t.idx.toNat ≤ 8 := by
  cases exec_bufferMove h with
  | kept _ _ _ idx => exact idx ▸ inv.idxBound
  | clears opened _ idx =>
    obtain ⟨-, rows, -⟩ := legal_of_opened inv opened
    exact idx ▸ rows
  | frames _ idx => rw [idx]; decide

theorem exec_status_ne_reserved {i : Instr} {s t : State} (inv : EngineInv s)
    (h : exec i s = .next t) : t.resp.status ≠ 3 := by
  cases exec_effect h with
  | command _ emits => exact commandEmits_status_ne_reserved emits
  | word _ _ emitted => exact emitted.resp ▸ inv.statusCode
  | answer answers => exact answers.status

theorem exec_count_le {i : Instr} {s t : State} (inv : EngineInv s) (h : exec i s = .next t) :
    t.resp.count.toNat ≤ 16 := by
  cases exec_effect h with
  | command opened emits =>
    obtain ⟨-, rows, -⟩ := legal_of_opened inv opened
    exact commandEmits_count_le emits ((length_wordsOf_le s.cfg i).trans (max_le rows le_rfl))
  | word _ _ emitted => exact emitted.resp ▸ inv.countBound
  | answer answers => rw [answers.count]; decide

theorem exec_wordsLegal {i : Instr} {s t : State} (inv : EngineInv s) (h : exec i s = .next t)
    (b0 b1 : Byte) (n : Fin 3) (hn : Call.txWrite b0 b1 n ∈ t.tr.calls) :
    outgoingAccepts b0 b1 = true := by
  obtain ⟨new, calls, within⟩ := exec_callsWithin h
  rw [calls] at hn
  obtain old | added := List.mem_append.1 hn
  · exact inv.wordsLegal b0 b1 n old
  · obtain ⟨opened, hw⟩ := within b0 b1 n added
    obtain ⟨-, rows, -⟩ := legal_of_opened inv opened
    exact outgoingAccepts_of_mem_wordsOf rows hw

theorem exec_engineInv {i : Instr} {s t : State} (inv : EngineInv s) (h : exec i s = .next t) :
    EngineInv t :=
  ⟨exec_cfgLegal inv h, exec_buffer_wf inv h, exec_idx_le inv h, exec_status_ne_reserved inv h,
    exec_count_le inv h, exec_wordsLegal inv h⟩

theorem accept_engineInv {s : State} (u : EncUnit) (rest : List HostItem) (inv : EngineInv s) :
    EngineInv (accept u rest s) := by
  obtain ⟨cfgLegal, buffer, idxBound, statusCode, countBound, wordsLegal⟩ := inv
  cases u <;> exact ⟨cfgLegal, buffer, idxBound, statusCode, countBound, wordsLegal⟩

theorem reset_engineInv : EngineInv State.reset :=
  ⟨fun h => absurd rfl h, rfl, by decide, by decide, by decide, nofun⟩

/-- Reset gives every element of the engine a value within the invariant and keeps the calls made. -/
theorem engineReset_engineInv {s : State}
    (words : ∀ b0 b1 n, Call.txWrite b0 b1 n ∈ s.tr.calls → outgoingAccepts b0 b1 = true) :
    EngineInv (engineReset s) :=
  ⟨reset_engineInv.cfgLegal, reset_engineInv.buffer, reset_engineInv.idxBound,
    reset_engineInv.statusCode, reset_engineInv.countBound, words⟩

end Sys2Proof.Machine

namespace Sys2Proof.Proofs

open Sys2Proof.Machine

/-- Settles O55 (R16, R18, R20, R21, R28, R48, R107): a step is a wait, a reset or an instruction, and an
instruction keeps each part of the invariant by what it does to session, buffer and words. -/
theorem everyStepKeepsTheInvariant : Obligations.EveryStepKeepsTheInvariant := by
  unfold Obligations.EveryStepKeepsTheInvariant
  intro s t inv h
  obtain ⟨-, rfl⟩ | ⟨rest, -, rfl⟩ | ⟨u, rest, i, -, -, hx⟩ := step_cases h
  · exact inv
  · exact engineReset_engineInv inv.wordsLegal
  · exact exec_engineInv (accept_engineInv u rest inv) hx

/-- Settles O54 (R122): `New` asks no extents, the buffer is empty, the values of log 1 lie in range, and
no primitive has been called. -/
theorem invariantHoldsAfterReset : Obligations.InvariantHoldsAfterReset := reset_engineInv

/-- Settles O49 (R20). -/
theorem onlyFrameWritesTheBuffer : Obligations.OnlyFrameWritesTheBuffer :=
  fun _ _ _ => exec_bufferKept

/-- Settles O50 (log 11): `IDX` by what each instruction does to the buffer's index; the event latches
because a response without an event is `respond`. -/
theorem unspecifiedElementsKeepTheirValues : Obligations.UnspecifiedElementsKeepTheirValues := by
  unfold Obligations.UnspecifiedElementsKeepTheirValues
  intro i s t h
  refine ⟨exec_lat h, exec_eventLatchesKept h, ?_⟩
  cases exec_bufferMove h with
  | kept notClear notFrame _ idx =>
    exact ⟨fun ⟨st, hi⟩ => absurd hi (notClear st),
      fun ⟨xo, yo, f, hi⟩ => absurd hi (notFrame xo yo f), fun _ _ => idx⟩
  | clears _ _ idx => exact ⟨fun _ => idx, nofun, fun notClear => absurd rfl (notClear _)⟩
  | frames _ idx => exact ⟨nofun, fun _ => idx, fun _ notFrame => absurd rfl (notFrame _ _ _)⟩

/-- Settles O53 (R19, R30 to R33, R40): the instructions that run outside `Open` are OPEN, in `New`, and
the unrecognised codes, which call nothing. -/
theorem transportIsCalledOnlyWhileHeld : Obligations.TransportIsCalledOnlyWhileHeld := by
  unfold Obligations.TransportIsCalledOnlyWhileHeld
  intro i s t h
  obtain ⟨new, calls, -⟩ := exec_callsWithin h
  refine ⟨new, calls, fun hne => ?_⟩
  obtain opened | opening | none := exec_calls_held h
  · exact .inl opened
  · exact .inr opening
  · rw [calls, List.append_right_eq_self] at none
    exact absurd none hne

end Sys2Proof.Proofs


/-! Proofs: the configuration image (spec/10_state.md R24) and the transform unit's coordinates
(spec/40_transform.md R65 to R70, R74, R76; spec/41_encoder_commands.md R83, R87). -/

namespace Sys2Proof.Machine

/-! ### The configuration image (R24) -/

theorem ofBool_getLsbD {w : Nat} (c : BitVec w) (i : Nat) :
    BitVec.ofBool (c.getLsbD i) = c.extractLsb' i 1 := by
  ext j hj
  have hj0 : j = 0 := by omega
  simp [hj0]

/-- The fields of an image, put together again, are adjacent runs of its bits. -/
theorem imageOfCfg_cfgOfImage (c : BitVec 12) : imageOfCfg (cfgOfImage c) = c := by
  simp only [imageOfCfg, cfgOfImage, ofBool_getLsbD]
  have join (i n m : Nat) : c.extractLsb' (i + n) m ++ c.extractLsb' i n = c.extractLsb' i (m + n) :=
    BitVec.extractLsb'_append_extractLsb'_eq_extractLsb' rfl
  rw [join 4 4 4, join 3 1 8, join 2 1 9, join 1 1 10, join 0 1 11]
  exact BitVec.extractLsb'_eq_self

theorem imageOfCfg_injective : Function.Injective imageOfCfg := by
  intro k k' h
  obtain ⟨hrest, hrowRev⟩ := append_eq_append_iff.1 h
  obtain ⟨hrest, hcolRev⟩ := append_eq_append_iff.1 hrest
  obtain ⟨hrest, hswap⟩ := append_eq_append_iff.1 hrest
  obtain ⟨hrest, hftEn⟩ := append_eq_append_iff.1 hrest
  obtain ⟨hcols, hrows⟩ := append_eq_append_iff.1 hrest
  rw [BitVec.ofBool_eq_iff_eq] at hrowRev hcolRev hswap hftEn
  cases k
  simp_all

/-- An image determines its configuration, and the one read from it has that image. -/
theorem cfgOfImage_imageOfCfg (k : Cfg) : cfgOfImage (imageOfCfg k) = k :=
  imageOfCfg_injective (imageOfCfg_cfgOfImage (imageOfCfg k))

/-! ### The mirrors (R65, R66) -/

/-- Both mirrors: over an extent `e`, when the flag is set. -/
def mirror (flag : Bool) (e : BitVec 4) (v : Byte) : Byte := if flag then e.setWidth 8 - 1 - v else v

theorem mx_eq_mirror (c : Cfg) (x : Byte) : mx c x = mirror c.rowRev c.cols x := rfl
theorem my_eq_mirror (c : Cfg) (y : Byte) : my c y = mirror c.colRev c.rows y := rfl

theorem mirror_unset (e : BitVec 4) (v : Byte) : mirror false e v = v := rfl

theorem mirror_set_eight (v : Byte) : mirror true 8 v = 7 - v := rfl

theorem mirror_mirror (flag : Bool) (e : BitVec 4) (v : Byte) :
    mirror flag e (mirror flag e v) = v := by
  cases flag with
  | false => rfl
  | true => exact sub_sub_cancel (e.setWidth 8 - 1) v

/-- In range the mirror does not wrap. -/
theorem mirror_set_toNat {e : BitVec 4} {v : Byte} (h : v.toNat < e.toNat) :
    (mirror true e v).toNat = e.toNat - 1 - v.toNat := by
  have width : (e.setWidth 8).toNat = e.toNat := BitVec.toNat_setWidth_of_le (by decide)
  have small := e.isLt
  simp only [mirror, if_true, BitVec.toNat_sub, width, BitVec.ofNat_eq_ofNat, BitVec.toNat_ofNat]
  omega

theorem mirror_toNat_lt (flag : Bool) {e : BitVec 4} {v : Byte} (h : v.toNat < e.toNat) :
    (mirror flag e v).toNat < e.toNat := by
  cases flag with
  | false => exact h
  | true =>
    rw [mirror_set_toNat h]
    omega

@[simp] theorem mx_mx (c : Cfg) (x : Byte) : mx c (mx c x) = x := mirror_mirror _ _ _
@[simp] theorem my_my (c : Cfg) (y : Byte) : my c (my c y) = y := mirror_mirror _ _ _

theorem mx_toNat_lt {c : Cfg} {x : Byte} (h : x.toNat < c.cols.toNat) :
    (mx c x).toNat < c.cols.toNat := mirror_toNat_lt _ h

theorem my_toNat_lt {c : Cfg} {y : Byte} (h : y.toNat < c.rows.toNat) :
    (my c y).toNat < c.rows.toNat := mirror_toNat_lt _ h

/-! ### The rotation (R67 to R69) -/

theorem rotate_keep {c : Cfg} (h : c.swap = false) (x y : Byte) : rotate c x y = (mx c x, my c y) := by
  simp [rotate, h]

theorem rotate_swap {c : Cfg} (h : c.swap = true) (x y : Byte) : rotate c x y = (my c y, mx c x) := by
  simp [rotate, h]

theorem unrotate_keep {c : Cfg} (h : c.swap = false) (x y : Byte) :
    unrotate c x y = (mx c x, my c y) := by
  simp [unrotate, h]

theorem unrotate_swap {c : Cfg} (h : c.swap = true) (x y : Byte) :
    unrotate c x y = (mx c y, my c x) := by
  simp [unrotate, h]

theorem unrotate_rotate (c : Cfg) (x y : Byte) :
    unrotate c (rotate c x y).1 (rotate c x y).2 = (x, y) := by
  cases h : c.swap with
  | false => rw [rotate_keep h, unrotate_keep h, mx_mx, my_my]
  | true => rw [rotate_swap h, unrotate_swap h, mx_mx, my_my]

theorem rotate_unrotate (c : Cfg) (x y : Byte) :
    rotate c (unrotate c x y).1 (unrotate c x y).2 = (x, y) := by
  cases h : c.swap with
  | false => rw [unrotate_keep h, rotate_keep h, mx_mx, my_my]
  | true => rw [unrotate_swap h, rotate_swap h, mx_mx, my_my]

/-! ### Masking to 3 bits (R73, R74, R83, R87) -/

/-- 256 is a multiple of 8: the mirror modulo 256 is the mirror modulo 8 there. -/
theorem mask3_mirror_mask3 (flag : Bool) (e : BitVec 4) (v : Byte) :
    mask3 (mirror flag e (mask3 v)) = mask3 (mirror flag e v) := by
  apply BitVec.eq_of_toNat_eq
  cases flag with
  | false => simp [mirror]
  | true =>
    have range := v.isLt
    simp only [mirror, if_true, mask3_toNat, BitVec.toNat_sub]
    omega

theorem mask3_mx_mask3 (c : Cfg) (x : Byte) : mask3 (mx c (mask3 x)) = mask3 (mx c x) :=
  mask3_mirror_mask3 _ _ _

theorem mask3_my_mask3 (c : Cfg) (y : Byte) : mask3 (my c (mask3 y)) = mask3 (my c y) :=
  mask3_mirror_mask3 _ _ _

theorem mask3_rotate_mask3 (c : Cfg) (x y : Byte) :
    mask3 (rotate c (mask3 x) (mask3 y)).1 = mask3 (rotate c x y).1 ∧
    mask3 (rotate c (mask3 x) (mask3 y)).2 = mask3 (rotate c x y).2 := by
  cases h : c.swap with
  | false =>
    rw [rotate_keep h, rotate_keep h]
    exact ⟨mask3_mx_mask3 c x, mask3_my_mask3 c y⟩
  | true =>
    rw [rotate_swap h, rotate_swap h]
    exact ⟨mask3_my_mask3 c y, mask3_mx_mask3 c x⟩

theorem mask3_axisAddr_mask3 (c : Cfg) (axis : Axis) (a : Byte) :
    mask3 (axisAddr c axis (mask3 a)) = mask3 (axisAddr c axis a) := by
  cases axis with
  | row => rw [axisAddr_row, axisAddr_row, mask3_my_mask3]
  | col => rw [axisAddr_col, axisAddr_col, mask3_mx_mask3]

/-- R83: the word of an LED sees its coordinates modulo 8. -/
theorem ledWord_mask3 (c : Cfg) (x y : Byte) (on : Bool) :
    ledWord c (mask3 x) (mask3 y) on = ledWord c x y on := by
  obtain ⟨hx, hy⟩ := mask3_rotate_mask3 c x y
  simp only [ledWord, ledPayload, hx, hy]

/-- R87: a line word sees its index modulo 8. -/
theorem lineWord_mask3 (c : Cfg) (axis : Axis) (a d : Byte) :
    lineWord c axis (mask3 a) d = lineWord c axis a d := by
  simp only [lineWord, lineByte0, mask3_axisAddr_mask3]

/-- A one-word command is a function of its word (R82, R85, R86). -/
theorem inOpen_emitOne_congr {w w' : Byte × Byte} (h : w = w') (s : State) :
    inOpen s (.next (emitOne w s)) = inOpen s (.next (emitOne w' s)) := by
  rw [h]

end Sys2Proof.Machine

namespace Sys2Proof.Proofs

open Sys2Proof.Machine

/-- Settles O9 (R24). -/
theorem configurationImageRoundTrip : Obligations.ConfigurationImageRoundTrip :=
  ⟨imageOfCfg_cfgOfImage, cfgOfImage_imageOfCfg⟩

/-- Settles O11 (R65, R66): each mirror subtracts from a constant; in range the subtraction does not
wrap. -/
theorem mirrorsAreInvolutionsInRange : Obligations.MirrorsAreInvolutionsInRange := by
  unfold Obligations.MirrorsAreInvolutionsInRange
  refine fun c v _ => ⟨mx_mx c v, my_my c v, fun h => ⟨mx_toNat_lt h, fun flag => ?_⟩,
    fun h => ⟨my_toNat_lt h, fun flag => ?_⟩, fun flag => ?_, fun flag => ?_⟩
  · rw [mx_eq_mirror, flag, mirror_set_toNat h]
  · rw [my_eq_mirror, flag, mirror_set_toNat h]
  · rw [mx_eq_mirror, flag, mirror_unset]
  · rw [my_eq_mirror, flag, mirror_unset]

/-- Settles O12 (R69): both directions mirror each coordinate by the same flag, and mirrors are
involutions that keep the range. -/
theorem rotateAndUnrotateAreInverse : Obligations.RotateAndUnrotateAreInverse := by
  unfold Obligations.RotateAndUnrotateAreInverse
  refine ⟨fun c x y => ⟨unrotate_rotate c x y, rotate_unrotate c x y⟩, fun c x y _ hx hy => ⟨?_, ?_⟩⟩
  · intro h
    rw [rotate_keep h]
    exact ⟨mx_toNat_lt hx, my_toNat_lt hy⟩
  · intro h
    rw [rotate_swap h]
    exact ⟨my_toNat_lt hy, mx_toNat_lt hx⟩

/-- Settles O13 (R74): 256 is a multiple of 8. -/
theorem maskingOrderCannotBeObserved : Obligations.MaskingOrderCannotBeObserved := by
  unfold Obligations.MaskingOrderCannotBeObserved
  intro c x y a axis
  obtain ⟨hx, hy⟩ := mask3_rotate_mask3 c x y
  exact ⟨hx.symm, hy.symm, (mask3_axisAddr_mask3 c axis a).symm⟩

/-- Settles O14 (R70). -/
theorem lineIndexIsMirroredByTheOtherFlag : Obligations.LineIndexIsMirroredByTheOtherFlag :=
  fun c a => ⟨axisAddr_row c a, axisAddr_col c a⟩

/-- Settles O18 (R76): each row of the table is its flags put into the two mirrors over extent 8. -/
theorem eightOrientationsOfTheSquareGrid : Obligations.EightOrientationsOfTheSquareGrid := by
  unfold Obligations.EightOrientationsOfTheSquareGrid
  intro ft x y
  have keep (rowRev colRev : Bool) : rotate ⟨rowRev, colRev, false, ft, 8, 8⟩ x y =
      (mirror rowRev 8 x, mirror colRev 8 y) := rotate_keep rfl x y
  have swap (rowRev colRev : Bool) : rotate ⟨rowRev, colRev, true, ft, 8, 8⟩ x y =
      (mirror colRev 8 y, mirror rowRev 8 x) := rotate_swap rfl x y
  simp only [keep, swap, mirror_unset, mirror_set_eight, and_self]

/-- Settles O30 (R83, R87, R133): the words see coordinates and indices modulo 8, and outside `Open` the
gate answers whatever the word. -/
theorem coordinatesAliasModuloEight : Obligations.CoordinatesAliasModuloEight := by
  unfold Obligations.CoordinatesAliasModuloEight
  exact fun x y a d on s => ⟨inOpen_emitOne_congr (ledWord_mask3 s.cfg x y on).symm s,
    inOpen_emitOne_congr (lineWord_mask3 s.cfg .row a d).symm s,
    inOpen_emitOne_congr (lineWord_mask3 s.cfg .col a d).symm s⟩

end Sys2Proof.Proofs


/-! Proofs: the commands of the encoder (spec/41_encoder_commands.md R77 to R90; spec/30_encoding.md R63).
Each completes in `Open` with its words in the frame of R77; FRAME is a run of ROW commands; a one-word
command is its table word between prologue and epilogue. -/

namespace Sys2Proof.Machine

/-! ### The one-word commands and MODE in phase `Open` -/

theorem exec_intensity {v : Byte} {s : State} (h : s.phase = .opened) :
    exec (.cmdIntensity v) s = .next (emitOne (Config.opbIntensity, v) s) := inOpen_opened h _

theorem exec_mode {m : Byte} {s : State} (h : s.phase = .opened) :
    exec (.cmdMode m) s = .next (epilogue (prologue s)) := inOpen_opened h _

theorem exec_led {x y : Byte} {on : Bool} {s : State} (h : s.phase = .opened) :
    exec (.cmdLed x y on) s = .next (emitOne (ledWord s.cfg x y on) s) := inOpen_opened h _

theorem exec_row {a d : Byte} {s : State} (h : s.phase = .opened) :
    exec (.cmdRow a d) s = .next (emitOne (lineWord s.cfg .row a d) s) := inOpen_opened h _

theorem exec_col {a d : Byte} {s : State} (h : s.phase = .opened) :
    exec (.cmdCol a d) s = .next (emitOne (lineWord s.cfg .col a d) s) := inOpen_opened h _

/-! ### The words, spelled out (R82, R85, R86, R89) -/

theorem ledWord_eq (c : Cfg) (x y : Byte) (on : Bool) :
    ledWord c x y on = ((if on then 0x20 else 0x10 : Byte),
      ((rotate c x y).1 &&& 0x07) <<< 4 ||| ((rotate c x y).2 &&& 0x07)) := by
  cases on <;> rfl

theorem opcodeByte_axisOpcode (c : Cfg) (axis : Axis) :
    opcodeByte (axisOpcode c axis) = if (axis = .col) = (c.swap = true) then 0x00 else 0x80 := by
  rw [axisOpcode_cases]
  split_ifs <;> rfl

theorem lineWord_row_eq (c : Cfg) (a d : Byte) :
    lineWord c .row a d = ((if c.swap then 0x80 else 0x00) ||| (my c a &&& 7),
      if c.rowRev then rev8 d else d) := by
  rw [lineWord, lineByte0, opcodeByte_axisOpcode, axisAddr_row, axisPayload_row, mask3]
  cases c.swap <;> rfl

theorem lineWord_col_eq (c : Cfg) (a d : Byte) :
    lineWord c .col a d = ((if c.swap then 0x00 else 0x80) ||| (mx c a &&& 7),
      if c.colRev then rev8 d else d) := by
  rw [lineWord, lineByte0, opcodeByte_axisOpcode, axisAddr_col, axisPayload_col, mask3]
  cases c.swap <;> rfl

/-- What the decoder makes of the word of ROW: a column write under `SWAP` (R72). -/
theorem decodeOutgoing_rowWord (c : Cfg) (a d : Byte) :
    decodeOutgoing (lineWord c .row a d).1 (lineWord c .row a d).2 =
      .ok (if c.swap then .wCol ((my c a).extractLsb' 0 3) (axisPayload c .row d)
        else .wRow ((my c a).extractLsb' 0 3) (axisPayload c .row d)) := by
  rw [decodeOutgoing_lineWord, axisAddr_row]
  cases c.swap <;> rfl

/-- What the decoder makes of the word of COL: a row write under `SWAP` (R72). -/
theorem decodeOutgoing_colWord (c : Cfg) (a d : Byte) :
    decodeOutgoing (lineWord c .col a d).1 (lineWord c .col a d).2 =
      .ok (if c.swap then .wRow ((mx c a).extractLsb' 0 3) (axisPayload c .col d)
        else .wCol ((mx c a).extractLsb' 0 3) (axisPayload c .col d)) := by
  rw [decodeOutgoing_lineWord, axisAddr_col]
  cases c.swap <;> rfl

/-! ### The record of calls as words and bytes (R30, R90) -/

/-- The calls of a run of words, each with its answer. -/
def writeCalls (ws : List (Byte × Byte)) (ns : List (Fin 3)) : List Call :=
  List.zipWith (fun w n => Call.txWrite w.1 w.2 n) ws ns

theorem offeredWords_writeCalls {ws : List (Byte × Byte)} {ns : List (Fin 3)}
    (h : ws.length = ns.length) : offeredWords (writeCalls ws ns) = ws := by
  induction ws generalizing ns with
  | nil => rfl
  | cons w ws ih =>
    cases ns with
    | nil => cases h
    | cons n ns => exact congrArg (w :: ·) (ih (Nat.succ.inj h))

theorem length_acceptedBytes_writeCalls {ws : List (Byte × Byte)} {ns : List (Fin 3)}
    (h : ws.length = ns.length) : (acceptedBytes (writeCalls ws ns)).length = totalAccepted ns := by
  induction ws generalizing ns with
  | nil =>
    cases ns with
    | nil => rfl
    | cons n ns => cases h
  | cons w ws ih =>
    cases ns with
    | nil => cases h
    | cons n ns =>
      have rest := ih (Nat.succ.inj h)
      have word : ([w.1, w.2].take n.val).length = n.val := by
        rw [List.length_take]
        exact Nat.min_eq_left (Nat.le_of_lt_succ n.isLt)
      change ([w.1, w.2].take n.val ++ acceptedBytes (writeCalls ws ns)).length = _
      rw [List.length_append, word, rest]
      rfl

theorem newCalls_of_offered {ws : List (Byte × Byte)} {s t : State} (h : Offered ws s t) :
    newCalls s t = writeCalls ws (writeAnswers ws.length s) :=
  newCalls_of_append h.calls

theorem offeredWords_of_offered {ws : List (Byte × Byte)} {s t : State} (h : Offered ws s t) :
    offeredWords (newCalls s t) = ws := by
  rw [newCalls_of_offered h, offeredWords_writeCalls (writeAnswers_length ws.length s).symm]

theorem length_acceptedBytes_of_offered {ws : List (Byte × Byte)} {s t : State}
    (h : Offered ws s t) :
    (acceptedBytes (newCalls s t)).length = totalAccepted (writeAnswers ws.length s) := by
  rw [newCalls_of_offered h, length_acceptedBytes_writeCalls (writeAnswers_length ws.length s).symm]

/-! ### What the response tells of the answers (R77, R79) -/

theorem commandEmits_status_ok_iff {ws : List (Byte × Byte)} {s t : State}
    (h : CommandEmits ws s t) :
    t.resp.status = statusOk ↔ ∀ n ∈ writeAnswers ws.length s, n = 2 := by
  rw [h.status]
  split_ifs with full
  · exact iff_of_true rfl full
  · exact iff_of_false (by decide) full

theorem commandEmits_count_full_iff {ws : List (Byte × Byte)} {s t : State}
    (h : CommandEmits ws s t) (hlen : ws.length < 128) :
    t.resp.count.toNat = 2 * ws.length ↔ ∀ n ∈ writeAnswers ws.length s, n = 2 := by
  have full := totalAccepted_full (writeAnswers ws.length s)
  rwa [writeAnswers_length, ← commandEmits_count h hlen] at full

/-! ### FRAME (R63, R88, R89) -/

/-- FRAME's buffer and words are functions of what R88 puts into the buffer, and so is its outcome. -/
theorem exec_frame_congr {xo yo xo' yo' : Byte} {f f' : Bytes8} {s : State}
    (h : frameSource Config.frameTransform s.cfg xo yo f =
      frameSource Config.frameTransform s.cfg xo' yo' f') :
    exec (.cmdFrame xo yo f) s = exec (.cmdFrame xo' yo' f') s := by
  change execFrame xo yo f s = execFrame xo' yo' f' s
  simp only [execFrame, frameBody, h]

/-- R88: after FRAME the buffer reads what R88 puts there. -/
theorem memRead_of_exec_frame {xo yo : Byte} {f : Bytes8} {s t : State}
    (h : exec (.cmdFrame xo yo f) s = .next t) {i : Nat} (hi : i < 8) :
    memRead i t =
      .ok ((frameBytes (frameSource Config.frameTransform s.cfg xo yo f)).getD i 0) := by
  obtain ⟨-, m, rfl, lists, -⟩ := exec_ends h
  exact memRead_of_lookup hi (lists i hi)

theorem frameWords_eq (c : Cfg) (buf : List Byte) :
    frameWords c buf =
      (List.range 8).map fun i => lineWord c .row (BitVec.ofNat 8 i) (buf.getD i 0) := by
  rw [frameWords, List.range_eq_range']

theorem length_frameWords (c : Cfg) (buf : List Byte) : (frameWords c buf).length = 8 := by
  simp [frameWords]

theorem exec_frame_next {xo yo : Byte} {f : Bytes8} {s : State} (h : s.phase = .opened) :
    ∃ t, exec (.cmdFrame xo yo f) s = .next t :=
  (exec_frame h).elim fun _ run => ⟨_, run.1⟩

/-- The words of FRAME read the buffer at the indices 0 to 7 only. -/
theorem frameWords_congr (c : Cfg) {buf buf' : List Byte}
    (h : ∀ i, i < 8 → buf.getD i 0 = buf'.getD i 0) : frameWords c buf = frameWords c buf' := by
  rw [frameWords_eq, frameWords_eq]
  exact List.map_congr_left fun i hi => by rw [h i (List.mem_range.1 hi)]

/-- What a run of words does to the transport depends on the transport alone. -/
theorem emitMany_tr_congr (ws : List (Byte × Byte)) {s t : State} (h : s.tr = t.tr) :
    (emitMany ws s).tr = (emitMany ws t).tr := by
  induction ws generalizing s t with
  | nil => exact h
  | cons w ws ih => exact ih (by simp [h])

/-- One-word commands run one after another leave the transport as their words do (R126). -/
theorem runAll_emitOne {α : Type} {instr : α → Instr} {word : Cfg → α → Byte × Byte}
    (hrun : ∀ a s, s.phase = .opened → exec (instr a) s = .next (emitOne (word s.cfg a) s))
    (l : List α) {s : State} (hp : s.phase = .opened) :
    ∃ u, runAll (l.map instr) s = .next u ∧ u.tr = (emitMany (l.map (word s.cfg)) s).tr := by
  induction l generalizing s with
  | nil => exact ⟨s, rfl, rfl⟩
  | cons a l ih =>
    obtain ⟨u, hu, htr⟩ := ih (s := emitOne (word s.cfg a) s) hp
    refine ⟨u, ?_, htr.trans (emitMany_tr_congr _ rfl)⟩
    rw [List.map_cons, runAll, hrun a s hp]
    exact hu

/-- R63: the ROW commands FRAME expands into. -/
theorem runAll_rows (buf : List Byte) {s : State} (hp : s.phase = .opened) :
    ∃ u, runAll ((List.range 8).map fun i => .cmdRow (BitVec.ofNat 8 i) (buf.getD i 0)) s = .next u ∧
      u.tr = (emitMany (frameWords s.cfg buf) s).tr := by
  rw [frameWords_eq]
  exact runAll_emitOne (word := fun c i => lineWord c .row (BitVec.ofNat 8 i) (buf.getD i 0))
    (fun _ _ => exec_row) (List.range 8) hp

theorem exec_frame_tr {xo yo : Byte} {f : Bytes8} {s t : State}
    (h : exec (.cmdFrame xo yo f) s = .next t) :
    s.phase = .opened ∧ t.tr = (emitMany
      (frameWords s.cfg (frameBytes (frameSource Config.frameTransform s.cfg xo yo f))) s).tr := by
  obtain ⟨opened, m, rfl, -⟩ := exec_ends h
  exact ⟨opened, emitMany_tr_congr _ (prologue_tr s)⟩

/-! ### The commands and the opcode table's words (R49 to R51) -/

/-- What the outgoing row of an instruction does, by its encoding: the word is offered. -/
theorem exec_of_encode_outgoing {b0 b1 : Byte} {i : Instr} {s : State}
    (he : encode i = .outgoing b0 b1) (hp : s.phase = .opened) :
    exec i s = .next (emit (b0, b1) s) := by
  have led : ∀ xr yr : BitVec 3,
      ledPayload (xr.setWidth 8) (yr.setWidth 8) = encodeLedPayload xr yr := by decide
  have row : ∀ a : BitVec 3,
      lineByte0 Config.opcRow (a.setWidth 8) = Config.opcRow ++ (0x0 : BitVec 1) ++ a := by decide
  have col : ∀ a : BitVec 3,
      lineByte0 Config.opcCol (a.setWidth 8) = Config.opcCol ++ (0x0 : BitVec 1) ++ a := by decide
  cases i with
  | wLedOn xr yr | wLedOff xr yr =>
    cases he
    rw [← led]
    exact wordInOpen_opened hp _
  | wRow a d =>
    cases he
    rw [← row]
    exact wordInOpen_opened hp _
  | wCol a d =>
    cases he
    rw [← col]
    exact wordInOpen_opened hp _
  | wIntensity v =>
    cases he
    exact wordInOpen_opened hp _
  | _ => cases he

/-- A word that decodes to a row is run by the row's instruction. -/
theorem exec_of_decodeOutgoing {w : Byte × Byte} {i : Instr} {s : State}
    (hd : decodeOutgoing w.1 w.2 = .ok i) (hp : s.phase = .opened) :
    exec i s = .next (emit w s) :=
  exec_of_encode_outgoing (encode_of_decodeOutgoing hd) hp

end Sys2Proof.Machine

namespace Sys2Proof.Proofs

open Sys2Proof.Machine

/-- Settles O19 (R82): a one-word command; the opcode byte by `ON`, the payload by `rotate`. -/
theorem ledEmitsTheRotatedPair : Obligations.LedEmitsTheRotatedPair := by
  unfold Obligations.LedEmitsTheRotatedPair
  refine ⟨fun x y on s hp => ⟨_, exec_led hp, ?_⟩, fun s hp hc => ⟨_, exec_led hp, ?_⟩⟩
  · rw [ledWord_eq]
    exact emitOne_answers _ s
  · rw [hc]
    exact emitOne_answers (0x20, 0x34) s

/-- Settles O20 (R85). -/
theorem rowEmitsItsLineWord : Obligations.RowEmitsItsLineWord := by
  unfold Obligations.RowEmitsItsLineWord
  refine ⟨fun a d s hp => ⟨_, exec_row hp, ?_⟩, by decide, by decide⟩
  have opcode : ((if s.cfg.swap then 0x8 else 0x0 : Byte) <<< 4) =
      if s.cfg.swap then 0x80 else 0x00 := by cases s.cfg.swap <;> rfl
  rw [lineWord_row_eq, opcode]
  exact emitOne_answers _ s

/-- Settles O21 (R86). -/
theorem colEmitsItsLineWord : Obligations.ColEmitsItsLineWord := by
  unfold Obligations.ColEmitsItsLineWord
  refine ⟨fun a d s hp => ⟨_, exec_col hp, ?_⟩, by decide, by decide⟩
  have opcode : ((if s.cfg.swap then 0x0 else 0x8 : Byte) <<< 4) =
      if s.cfg.swap then 0x00 else 0x80 := by cases s.cfg.swap <;> rfl
  rw [lineWord_col_eq, opcode]
  exact emitOne_answers _ s

/-- Settles O22 (R80). -/
theorem intensityEmitsTheLevelUnchecked : Obligations.IntensityEmitsTheLevelUnchecked :=
  fun level s hp => ⟨_, exec_intensity hp, emitOne_answers (0x0A, level) s⟩

/-- Settles O23 (R81): MODE is prologue and epilogue with no word between; its operand is not read. -/
theorem modeIsANoOpReturningSuccess : Obligations.ModeIsANoOpReturningSuccess := by
  unfold Obligations.ModeIsANoOpReturningSuccess
  refine ⟨fun m s hp => ⟨_, exec_mode hp, rfl, rfl, rfl, ?_⟩, fun m n s => rfl⟩
  exact ⟨epilogue_emitMany_commandEmits [] s s.wb s.idx, fun _ => rfl⟩

/-- Settles O24 (R78): CLEAR's loop is a run of raw row words; `STAT` is not read. -/
theorem clearEmitsOneRawRowWordPerRow : Obligations.ClearEmitsOneRawRowWordPerRow := by
  unfold Obligations.ClearEmitsOneRawRowWordPerRow
  intro st s hp
  have run := exec_clear (st := st) hp
  exact ⟨_, run, exec_commandEmits (i := .cmdClear st) rfl run, exec_bufferKept run nofun,
    exec_clear hp⟩

/-- Settles O25 (R79): each answer is at most 2, so the sum is `2 * ROWS` only when every one is 2. -/
theorem clearCountTellsSuccess : Obligations.ClearCountTellsSuccess := by
  unfold Obligations.ClearCountTellsSuccess
  intro st s t h
  have emits := exec_commandEmits (i := .cmdClear st) rfl h
  have words : (wordsOf s.cfg (.cmdClear st)).length = s.cfg.rows.toNat := by
    simp [wordsOf, clearWords]
  have short : (wordsOf s.cfg (.cmdClear st)).length < 128 := by
    have bound := length_wordsOf_lt s.cfg (.cmdClear st)
    omega
  have count := commandEmits_count emits short
  have full := commandEmits_count_full_iff emits short
  have status := commandEmits_status_ok_iff emits
  rw [words] at count full status
  exact ⟨count, full, status.trans full.symm⟩

/-- Settles O26 (R89): the words are the line words of the buffer that R88 filled; on success all 8 words
are accepted whole. -/
theorem frameDecomposesTheBufferIntoEightLines :
    Obligations.FrameDecomposesTheBufferIntoEightLines := by
  unfold Obligations.FrameDecomposesTheBufferIntoEightLines
  intro xoff yoff f s hp
  obtain ⟨t, run⟩ := exec_frame_next (xo := xoff) (yo := yoff) (f := f) hp
  have emits : CommandEmits (frameWords s.cfg _) s t := exec_commandEmits rfl run
  have success := commandEmits_count_full_iff emits (by rw [length_frameWords]; decide)
  have status := commandEmits_status_ok_iff emits
  rw [length_frameWords] at success status
  refine ⟨t, _, run, rfl, fun i hi => memRead_of_exec_frame run hi, ?_,
    fun full => ⟨BitVec.eq_of_toNat_eq (success.2 full), status.2 full⟩⟩
  simpa only [frameWords_eq, lineWord_row_eq] using emits

/-- Settles O27 (R88): FRAME is a function of what it puts into the buffer. -/
theorem frameFillsTheBufferExactly : Obligations.FrameFillsTheBufferExactly := by
  unfold Obligations.FrameFillsTheBufferExactly
  intro xoff yoff f s t h
  refine ⟨fun i hi => memRead_of_exec_frame h hi, fun hft xo yo => ?_, fun hft xo yo g hg => ?_⟩
  · exact (exec_frame_congr (by simp [frameSource, hft])).trans h
  · exact (exec_frame_congr (by simp [frameSource, hft, hg])).trans h

/-- Settles O28 (R63): both offer the line words of the buffer's bytes from the same transport. -/
theorem frameIsEightRowCommands : Obligations.FrameIsEightRowCommands := by
  unfold Obligations.FrameIsEightRowCommands
  intro xoff yoff f s t buf h hbuf
  have bytes : ∀ i, i < 8 →
      (frameBytes (frameSource Config.frameTransform s.cfg xoff yoff f)).getD i 0 = buf.getD i 0 :=
    fun i hi => Except.ok.inj ((memRead_of_exec_frame h hi).symm.trans (hbuf i hi))
  obtain ⟨opened, tr⟩ := exec_frame_tr h
  obtain ⟨u, hu, htr⟩ := runAll_rows buf opened
  refine ⟨u, hu, htr.trans ?_⟩
  rw [tr, frameWords_congr s.cfg bytes]

/-- Settles O29 (the table's "emitted_by"): the words decode to table rows, and a row's instruction offers
the word it was decoded from. -/
theorem commandsRunTheirTableWords : Obligations.CommandsRunTheirTableWords := by
  unfold Obligations.CommandsRunTheirTableWords
  refine ⟨fun x y on s hp => ?_, fun a d s hp => ?_, fun a d s hp => ?_, fun v s hp => ?_⟩
  · exact ⟨_, _, _, exec_of_decodeOutgoing (decodeOutgoing_ledWord s.cfg x y on) hp, exec_led hp⟩
  · exact ⟨_, _, _, exec_of_decodeOutgoing (decodeOutgoing_rowWord s.cfg a d) hp, exec_row hp⟩
  · exact ⟨_, _, _, exec_of_decodeOutgoing (decodeOutgoing_colWord s.cfg a d) hp, exec_col hp⟩
  · exact ⟨_, exec_of_decodeOutgoing (decodeOutgoing_intensity v) hp, exec_intensity hp⟩

/-- Settles O31 (R90): the words are `wordsOf` of the configuration and the command. -/
theorem offeredWordsIgnoreTheTransport : Obligations.OfferedWordsIgnoreTheTransport := by
  unfold Obligations.OfferedWordsIgnoreTheTransport
  intro i a b t u hi hcfg ha hb
  rw [offeredWords_of_offered (exec_commandEmits hi ha).offered,
    offeredWords_of_offered (exec_commandEmits hi hb).offered, hcfg]

/-- Settles O32 (R21, R30): both are the sum of the answers to the command's words. -/
theorem countIsTheBytesAccepted : Obligations.CountIsTheBytesAccepted := by
  unfold Obligations.CountIsTheBytesAccepted
  intro i s t hi h
  have emits := exec_commandEmits hi h
  have short := length_wordsOf_lt s.cfg i
  rw [commandEmits_count emits (by omega), length_acceptedBytes_of_offered emits.offered]

end Sys2Proof.Proofs


/-! Proofs: incoming words and EVT (spec/42_event_decode.md R91 to R97), and the wire words as instructions
(spec/30_encoding.md R49 to R52; log 6). -/

namespace Sys2Proof.Machine

/-! ### A word put together from its fields (R52, R55, R92, R95) -/

theorem incomingX_append (xd yd : Nibble) : incomingX (xd ++ yd) = xd.setWidth 8 :=
  congrArg (BitVec.setWidth 8) BitVec.extractLsb'_append_eq_left

theorem incomingY_append (xd yd : Nibble) : incomingY (xd ++ yd) = yd.setWidth 8 :=
  congrArg (BitVec.setWidth 8) BitVec.extractLsb'_append_eq_right

theorem eventOfWord_append (fam low : Nibble) (b1 : Byte) (s : State) :
    eventOfWord (fam ++ low) b1 s =
      if fam = Config.famDown then buttonEvent .buttonDown (incomingX b1) (incomingY b1) s
      else if fam = Config.famUp then buttonEvent .buttonUp (incomingX b1) (incomingY b1) s
      else noEvent s := by
  rw [eventOfWord, BitVec.extractLsb'_append_eq_left]

theorem eventOfWord_append_unknown {fam : Nibble} (low : Nibble) (b1 : Byte) (s : State)
    (h : fam ≠ Config.famDown ∧ fam ≠ Config.famUp) : eventOfWord (fam ++ low) b1 s = noEvent s := by
  rw [eventOfWord_append, if_neg h.1, if_neg h.2]

theorem buttonWord_eq (kind : EvKind) (b0 : Byte) (xd yd : Nibble) (s : State) :
    buttonWord kind b0 xd yd s = buttonEvent kind (incomingX (xd ++ yd)) (incomingY (xd ++ yd))
      (recordRead (.word b0 (xd ++ yd)) s) := by
  rw [incomingX_append, incomingY_append, buttonWord]

/-- What the incoming row of an instruction does, by its encoding: the word is recorded as read and
decoded to its event. -/
theorem exec_of_encode_incoming {b0 b1 : Byte} {i : Instr} {s : State}
    (he : encode i = .incoming b0 b1) (hp : s.phase = .opened) :
    exec i s = .next (eventOfWord b0 b1 (recordRead (.word b0 b1) s)) := by
  have notButton23 : ∀ f : BitVec 1, (0x1 : BitVec 3) ++ f ≠ Config.famDown ∧
      (0x1 : BitVec 3) ++ f ≠ Config.famUp := by decide
  have notButton47 : ∀ f : BitVec 2, (0x1 : BitVec 2) ++ f ≠ Config.famDown ∧
      (0x1 : BitVec 2) ++ f ≠ Config.famUp := by decide
  have notButton8F : ∀ f : BitVec 3, (0x1 : BitVec 1) ++ f ≠ Config.famDown ∧
      (0x1 : BitVec 1) ++ f ≠ Config.famUp := by decide
  cases i with
  | eDown low xd yd =>
    cases he
    rw [eventOfWord_append, if_pos rfl, ← buttonWord_eq]
    exact wordInOpen_opened hp _
  | eUp low xd yd =>
    cases he
    rw [eventOfWord_append, if_neg (by decide), if_pos rfl, ← buttonWord_eq]
    exact wordInOpen_opened hp _
  | eUnknown23 f low p =>
    cases he
    rw [eventOfWord_append_unknown low _ _ (notButton23 f)]
    exact wordInOpen_opened hp _
  | eUnknown47 f low p =>
    cases he
    rw [eventOfWord_append_unknown low _ _ (notButton47 f)]
    exact wordInOpen_opened hp _
  | eUnknown8F f low p =>
    cases he
    rw [eventOfWord_append_unknown low _ _ (notButton8F f)]
    exact wordInOpen_opened hp _
  | _ => cases he

/-- The state in which the transport's next answer to `RxRead` has been taken. -/
theorem drawRead_state (s : State) :
    (drawRead s).2 =
      { s with tr := { s.tr with reads := s.tr.reads.drop 1, drawn := s.tr.drawn + 1 } } := by
  rw [← draw_rest s.tr.reads (Config.rxReadFree s.tr.drawn)]
  rfl

/-! ### The loopback (R97) -/

/-- The payload of in-range coordinates has them as its nibbles. -/
theorem ledPayload_nibbles {xr yr : Byte} (hx : xr.toNat < 8) (hy : yr.toNat < 8) :
    ledPayload xr yr >>> 4 = xr ∧ ledPayload xr yr &&& 0xF = yr := by
  have packed : (ledPayload xr yr).toNat = xr.toNat * 16 + yr.toNat := by
    rw [ledPayload_toNat, Nat.mod_eq_of_lt hx, Nat.mod_eq_of_lt hy]
  refine ⟨BitVec.eq_of_toNat_eq ?_, BitVec.eq_of_toNat_eq ?_⟩
  · rw [BitVec.toNat_ushiftRight, Nat.shiftRight_eq_div_pow, packed]
    omega
  · have low := Nat.and_two_pow_sub_one_eq_mod (ledPayload xr yr).toNat 4
    refine (BitVec.toNat_and _ _).trans (low.trans ?_)
    rw [packed]
    omega

/-- An in-grid cell is rotated into the 8 by 8 range that 3 bits carry. -/
theorem rotate_toNat_lt_eight {c : Cfg} {x y : Byte} (hl : c.Legal) (hx : x.toNat < c.cols.toNat)
    (hy : y.toNat < c.rows.toNat) : (rotate c x y).1.toNat < 8 ∧ (rotate c x y).2.toNat < 8 := by
  obtain ⟨-, rows, -, cols⟩ := hl
  have hx' := mx_toNat_lt hx
  have hy' := my_toNat_lt hy
  cases h : c.swap with
  | false => rw [rotate_keep h]; exact ⟨hx'.trans_le cols, hy'.trans_le rows⟩
  | true => rw [rotate_swap h]; exact ⟨hy'.trans_le rows, hx'.trans_le cols⟩

/-- R97: byte 1 of an LED word, unpacked and unrotated, is the cell. -/
theorem unrotate_ledWord {c : Cfg} {x y : Byte} {on : Bool} (hl : c.Legal)
    (hx : x.toNat < c.cols.toNat) (hy : y.toNat < c.rows.toNat) :
    unrotate c ((ledWord c x y on).2 >>> 4) ((ledWord c x y on).2 &&& 0xF) = (x, y) := by
  obtain ⟨hx', hy'⟩ := rotate_toNat_lt_eight hl hx hy
  obtain ⟨high, low⟩ := ledPayload_nibbles hx' hy'
  rw [ledWord, high, low, unrotate_rotate]

/-- A button word behind either family gives an event at the unrotated nibbles of its byte 1. -/
theorem eventOfWord_button {b0 : Byte} (h : b0 >>> 4 = 0x0 ∨ b0 >>> 4 = 0x1) (b1 : Byte) (s : State) :
    ∃ kind, eventOfWord b0 b1 s = buttonEvent kind (b1 >>> 4) (b1 &&& 0xF) s := by
  obtain down | up := h
  · exact ⟨_, eventOfWord_down down b1 s⟩
  · exact ⟨_, eventOfWord_up up b1 s⟩

/-! ### What a wire word by itself leaves (log 6) -/

theorem wordInOpen_emit {w w' : Byte × Byte} {s : State} (hp : s.phase = .opened) (hw : w = w') :
    ∃ t, wordInOpen s (emit w s) = .next t ∧ WordEmitted w' s t :=
  ⟨_, wordInOpen_opened hp _, hw ▸ emit_wordEmitted w s⟩

theorem buttonWord_wordRead (kind : EvKind) (b0 : Byte) (xd yd : Nibble) (s : State) :
    WordRead b0 (xd ++ yd) s (buttonWord kind b0 xd yd s) :=
  ⟨rfl, ⟨rfl, rfl⟩, ⟨rfl, rfl, rfl, rfl⟩, fun _ => rfl⟩

theorem droppedWord_wordRead (b0 b1 : Byte) (s : State) : WordRead b0 b1 s (droppedWord b0 b1 s) :=
  ⟨rfl, ⟨rfl, rfl⟩, ⟨rfl, rfl, rfl, rfl⟩, fun _ => rfl⟩

end Sys2Proof.Machine

namespace Sys2Proof.Proofs

open Sys2Proof.Machine

/-- Settles O36 (R96): a short answer is taken like any other, and its response is no event. -/
theorem shortReadIsNoEvent : Obligations.ShortReadIsNoEvent := by
  unfold Obligations.ShortReadIsNoEvent
  intro s a hp hr ha
  have run := exec_evt hp
  rw [hr] at run
  obtain ⟨tr, session, accumulators, buffer⟩ := eventOfAnswer_answerTaken a s
  refine ⟨_, run, ?_, tr, session, accumulators, buffer⟩
  obtain rfl | ⟨b0, rfl⟩ := ha
  · exact noEvent_noEventAnswered
  · exact noEvent_noEventAnswered

/-- Settles O37 (the table's "consumed_by"): the word is the encoding of the instruction it decodes to. -/
theorem evtRunsTheIncomingWord : Obligations.EvtRunsTheIncomingWord := by
  unfold Obligations.EvtRunsTheIncomingWord
  intro s b0 b1 hp hr
  rw [← drawRead_state, exec_evt hp, hr]
  exact (exec_of_encode_incoming (s := (drawRead s).2) (encode_decodeIncoming b0 b1) hp).symm

/-- Settles O38 (R97): in the grid the 3-bit masks lose nothing, and `unrotate` undoes `rotate`. -/
theorem loopbackRecoversTheCell : Obligations.LoopbackRecoversTheCell := by
  unfold Obligations.LoopbackRecoversTheCell
  intro x y on s hp hl hx hy
  refine ⟨_, (ledWord s.cfg x y on).1, (ledWord s.cfg x y on).2, exec_led hp,
    offeredWords_of_offered (emitOne_answers _ s).emits.offered, fun f v hf hpv hcfg hrv => ?_⟩
  obtain ⟨u, run, hu, -⟩ := exec_evt_word hpv hrv
  obtain ⟨kind, event⟩ := eventOfWord_button hf (ledWord s.cfg x y on).2
    (recordRead (.word f (ledWord s.cfg x y on).2) (drawRead v).2)
  have cfg : v.cfg = s.cfg := hcfg
  have cell : unrotate v.cfg ((ledWord s.cfg x y on).2 >>> 4) ((ledWord s.cfg x y on).2 &&& 0xF) =
      (x, y) := by rw [cfg, unrotate_ledWord hl hx hy]
  refine ⟨u, run, ?_⟩
  rw [hu, event]
  exact ⟨rfl, congrArg Prod.fst cell, congrArg Prod.snd cell⟩

/-- Settles O39 (R49 to R51): each row is `emit` of its word. -/
theorem outgoingRowsOfferTheirWord : Obligations.OutgoingRowsOfferTheirWord := by
  unfold Obligations.OutgoingRowsOfferTheirWord
  have led : ∀ xr yr : BitVec 3, ledPayload (xr.setWidth 8) (yr.setWidth 8) =
      xr.setWidth 8 <<< 4 ||| yr.setWidth 8 := by decide
  have row : ∀ a : BitVec 3, lineByte0 Config.opcRow (a.setWidth 8) = a.setWidth 8 := by decide
  have col : ∀ a : BitVec 3, lineByte0 Config.opcCol (a.setWidth 8) = 0x80 ||| a.setWidth 8 := by
    decide
  refine fun s hp => ⟨fun xr yr => ?_, fun xr yr => ?_, fun a d => ?_, fun a d => ?_, fun v => ?_⟩
  · exact wordInOpen_emit hp (congrArg (Prod.mk 0x20) (led xr yr))
  · exact wordInOpen_emit hp (congrArg (Prod.mk 0x10) (led xr yr))
  · exact wordInOpen_emit hp (congrArg (·, d) (row a))
  · exact wordInOpen_emit hp (congrArg (·, d) (col a))
  · exact wordInOpen_emit (w := (0x0A, v)) hp rfl

/-- Settles O40 (R92 to R95): each row is a button word or a dropped one. -/
theorem incomingRowsGiveTheirEvent : Obligations.IncomingRowsGiveTheirEvent := by
  unfold Obligations.IncomingRowsGiveTheirEvent
  refine fun s hp => ⟨fun low xd yd => ?_, fun low xd yd => ?_, fun f low p => ?_, fun f low p => ?_,
    fun f low p => ?_⟩
  · exact ⟨_, wordInOpen_opened hp _, buttonWord_wordRead _ _ _ _ s, rfl⟩
  · exact ⟨_, wordInOpen_opened hp _, buttonWord_wordRead _ _ _ _ s, rfl⟩
  · exact ⟨_, wordInOpen_opened hp _, droppedWord_wordRead _ _ s, noEvent_noEventAnswered⟩
  · exact ⟨_, wordInOpen_opened hp _, droppedWord_wordRead _ _ s, noEvent_noEventAnswered⟩
  · exact ⟨_, wordInOpen_opened hp _, droppedWord_wordRead _ _ s, noEvent_noEventAnswered⟩

end Sys2Proof.Proofs


/-! Proofs: when an instruction runs and what refuses it (spec/43_session.md R98 to R104), and the step
(spec/60_exceptions.md R112, R113; spec/70_reset_and_hazards.md R122, R123). -/

namespace Sys2Proof.Machine

/-! ### When an instruction answers a next state (R104) -/

theorem runs_of_exec {i : Instr} {s t : State} (h : exec i s = .next t) : Runs i s.phase := by
  have he := exec_ends h
  cases i with
  | cmdOpen =>
    obtain ⟨fresh, legal, -⟩ := he
    exact ⟨fresh, legal⟩
  | unrecognizedAB | unrecognizedCF => trivial
  | _ =>
    obtain ⟨opened, -⟩ := he
    exact opened

theorem exec_next_of_runs {i : Instr} {s : State} (h : Runs i s.phase) : ∃ t, exec i s = .next t := by
  cases i with
  | cmdOpen =>
    obtain ⟨fresh, legal⟩ := h
    exact ⟨_, exec_open fresh legal⟩
  | cmdClose => exact ⟨_, exec_close h⟩
  | cmdEvt => exact ⟨_, exec_evt h⟩
  | cmdClear => exact ⟨_, exec_clear h⟩
  | cmdFrame => exact exec_frame_next h
  | unrecognizedAB | unrecognizedCF => exact ⟨_, exec_unrecognized rfl s⟩
  | cmdIntensity | cmdMode | cmdLed | cmdRow | cmdCol => exact ⟨_, inOpen_opened h _⟩
  | _ => exact ⟨_, wordInOpen_opened h _⟩

/-! ### What refuses it otherwise (R98, R102, R104; logs 6 and 8) -/

/-- The reason by which the instruction `i` is refused in phase `p` when it does not run there. -/
def refusalOf (p : Phase) : Instr → Refusal
  | .cmdOpen _ => if p = .fresh then .extentOutOfRange else .openOutsideNew
  | .cmdClose => .closeOutsideOpen
  | i => if isWireWord i then .wordOutsideOpen else .commandOutsideOpen

theorem inOpen_not_opened {s : State} (h : s.phase ≠ .opened) (r : Result) :
    inOpen s r = .refused .commandOutsideOpen := if_neg h

theorem wordInOpen_not_opened {s : State} (h : s.phase ≠ .opened) (t : State) :
    wordInOpen s t = .refused .wordOutsideOpen := if_neg h

theorem exec_open_of_not_runs {c : BitVec 12} {s : State} (h : ¬ Runs (.cmdOpen c) s.phase) :
    exec (.cmdOpen c) s = .refused (refusalOf s.phase (.cmdOpen c)) := by
  change execOpen c s = .refused (if s.phase = .fresh then .extentOutOfRange else .openOutsideNew)
  by_cases fresh : s.phase = .fresh
  · have illegal : ¬ (cfgOfImage c).Legal := fun legal => h ⟨fresh, legal⟩
    rw [execOpen, if_pos fresh, if_neg illegal, if_pos fresh]
  · rw [execOpen, if_neg fresh, if_neg fresh]

theorem exec_of_not_runs {i : Instr} {s : State} (h : ¬ Runs i s.phase) :
    exec i s = .refused (refusalOf s.phase i) := by
  cases i with
  | cmdOpen => exact exec_open_of_not_runs h
  | cmdClose => exact if_neg h
  | unrecognizedAB | unrecognizedCF => exact absurd trivial h
  | cmdEvt | cmdClear | cmdIntensity | cmdMode | cmdLed | cmdRow | cmdCol | cmdFrame =>
    exact inOpen_not_opened h _
  | _ => exact wordInOpen_not_opened h _

theorem exec_encoderCommand_not_opened {i : Instr} {s : State} (hi : isEncoderCommand i = true)
    (h : s.phase ≠ .opened) : exec i s = .refused .commandOutsideOpen := by
  cases i with
  | cmdClear | cmdIntensity | cmdMode | cmdLed | cmdRow | cmdCol | cmdFrame => exact exec_of_not_runs h
  | _ => cases hi

theorem exec_wireWord_not_opened {i : Instr} {s : State} (hi : isWireWord i = true)
    (h : s.phase ≠ .opened) : exec i s = .refused .wordOutsideOpen := by
  cases i with
  | wLedOn | wLedOff | wRow | wCol | wIntensity | eDown | eUp | eUnknown23 | eUnknown47
  | eUnknown8F => exact exec_of_not_runs h
  | _ => cases hi

/-! ### The step -/

theorem step_present {s : State} {u : EncUnit} {rest : List HostItem} {i : Instr}
    (h : s.host = .present u :: rest) (hd : decode u = .ok i) :
    step s = exec i (accept u rest s) := by
  simp only [step, h, hd]

theorem step_reject {s : State} {u : EncUnit} {rest : List HostItem} {r : Reject}
    (h : s.host = .present u :: rest) (hd : decode u = .error r) :
    step s = .refused (.reservedEncoding r) := by
  simp only [step, h, hd]

theorem step_wait {s : State} (h : s.host = []) : step s = .next s := by
  simp only [step, h]

/-- R122: after reset no byte of the buffer has a value. -/
theorem memRead_engineReset (s : State) {a : Nat} (h : a < 8) :
    memRead a (engineReset s) = .error .bufferByteUnwritten := by
  rw [memRead, if_pos h]
  rfl

/-- The state after CLOSE's primitive (R33). -/
theorem txClose_state (s : State) :
    (txClose s).2 = { s with tr := { s.tr with closes := s.tr.closes.drop 1, drawn := s.tr.drawn + 1,
                                               calls := s.tr.calls ++ [.txClose (nextClose s)] } } := by
  rw [← draw_rest s.tr.closes (Config.txCloseFree s.tr.drawn)]
  rfl

end Sys2Proof.Machine

namespace Sys2Proof.Proofs

open Sys2Proof.Machine

/-- Settles O44 (R98, R102, R104): each clause names an instruction that does not run, and `refusalOf` says
by what it is refused. -/
theorem wrongPhaseOrExtentIsRefused : Obligations.WrongPhaseOrExtentIsRefused := by
  unfold Obligations.WrongPhaseOrExtentIsRefused
  refine fun s => ⟨fun c hp => ?_, fun c hp illegal => ?_, fun hp => ⟨exec_of_not_runs hp,
    exec_of_not_runs hp, fun i hi => exec_encoderCommand_not_opened hi hp,
    fun i hi => exec_wireWord_not_opened hi hp⟩⟩
  · rw [exec_open_of_not_runs fun runs => hp runs.1, refusalOf, if_neg hp]
  · rw [exec_open_of_not_runs fun runs => illegal runs.2, refusalOf, if_pos hp]

/-- Settles O45 (R104, R113). -/
theorem instructionsAnswerExactlyInTheirPhase : Obligations.InstructionsAnswerExactlyInTheirPhase :=
  fun _ _ => ⟨fun ⟨_, h⟩ => runs_of_exec h, exec_next_of_runs⟩

/-- Settles O46 (R99 to R104): the three moves of the session. -/
theorem onlyOpenAndCloseMoveThePhase : Obligations.OnlyOpenAndCloseMoveThePhase := by
  unfold Obligations.OnlyOpenAndCloseMoveThePhase
  intro i s t h
  cases exec_sessionMove h with
  | kept phase => exact .inl phase
  | opens fresh _ granted phase => exact .inr (.inl ⟨⟨_, rfl⟩, fresh, granted, phase⟩)
  | closes opened phase => exact .inr (.inr ⟨rfl, opened, phase⟩)

/-- Settles O42 (R101). -/
theorem closeEndsTheSession : Obligations.CloseEndsTheSession := by
  unfold Obligations.CloseEndsTheSession
  intro s hp
  rw [exec_close hp, txClose_state]
  rfl

/-- Settles O1 (R122, R123). -/
theorem resetLeavesPhaseNewAndCallsNothing : Obligations.ResetLeavesPhaseNewAndCallsNothing := by
  unfold Obligations.ResetLeavesPhaseNewAndCallsNothing
  exact ⟨rfl, fun a ha => memRead_engineReset State.reset ha,
    fun s rest hh => ⟨_, step_reset hh, rfl, rfl, rfl, fun a ha => memRead_engineReset _ ha⟩⟩

/-- Settles O2 (R6, R17, R45): `accept` takes the item and loads a command's latches. -/
theorem stepRunsTheDecodedInstruction : Obligations.StepRunsTheDecodedInstruction :=
  ⟨fun _ _ _ _ => step_present, fun _ _ _ _ _ => step_present, fun _ _ _ _ _ => step_present⟩

/-- Settles O3 (R112). -/
theorem stepWaitsForTheHost : Obligations.StepWaitsForTheHost :=
  ⟨fun _ => step_wait, fun _ _ _ _ => step_reject⟩

end Sys2Proof.Proofs


/-! Proofs: the working buffer's byte accesses and its canonical form (spec/20_memory.md R28; log 2). -/

namespace Sys2Proof.Machine

/-! ### Reads as lookups (R28) -/

theorem memRead_congr_lookup {s t : State} {a : Nat}
    (h : Memory.lookup t.wb a = Memory.lookup s.wb a) : memRead a t = memRead a s := by
  simp only [memRead, h]

/-- Inside the buffer a read tells exactly whether the index is listed, and with what byte. -/
theorem memRead_eq_ok_iff {s : State} {a : Nat} {v : Byte} (ha : a < 8) :
    memRead a s = .ok v ↔ Memory.lookup s.wb a = some v := by
  rw [memRead, if_pos ha]
  cases Memory.lookup s.wb a <;> simp

theorem memRead_absent {a : Nat} (h : 8 ≤ a) (s : State) :
    memRead a s = .error .bufferIndexAbsent := if_neg (by omega)

theorem memWrite_absent {a : Nat} (h : 8 ≤ a) (v : Byte) (s : State) :
    memWrite a v s = .error .bufferIndexAbsent := if_neg (by omega)

/-! ### A canonical buffer is determined by its lookups (log 2) -/

/-- With strictly rising indices an entry is found at its index. -/
theorem Memory.lookup_eq_some_iff {m : Memory} (h : (m.map Prod.fst).Pairwise (· < ·)) (a : Nat)
    (v : Byte) : Memory.lookup m a = some v ↔ (a, v) ∈ m := by
  induction m with
  | nil => simp [Memory.lookup]
  | cons c m ih =>
    obtain ⟨above, rising⟩ := List.pairwise_cons.1 h
    rw [Memory.lookup, List.mem_cons]
    split_ifs with hc
    · have later : (a, v) ∉ m := fun hm => by
        have lt := above a (List.mem_map_of_mem hm)
        omega
      subst hc
      simp [later, Prod.ext_iff, eq_comm]
    · have other : (a, v) ≠ c := fun he => hc (congrArg Prod.fst he).symm
      rw [ih rising, or_iff_right other]

theorem Memory.eq_of_lookup_eq {m n : Memory} (hm : (m.map Prod.fst).Pairwise (· < ·))
    (hn : (n.map Prod.fst).Pairwise (· < ·)) (h : ∀ a, Memory.lookup m a = Memory.lookup n a) :
    m = n := by
  have irrefl : Std.Irrefl fun c d : Host.Cell => c.1 < d.1 := ⟨fun c => Nat.lt_irrefl c.1⟩
  refine (List.pairwise_map.1 hm).eq_of_mem_iff (List.pairwise_map.1 hn) fun c => ?_
  rw [← Memory.lookup_eq_some_iff hm c.1 c.2, h, Memory.lookup_eq_some_iff hn]

/-- No entry of a canonical buffer lies outside it. -/
theorem Memory.lookup_of_wf {m : Memory} (h : Memory.wf m = true) {a : Nat} (ha : 8 ≤ a) :
    Memory.lookup m a = none := by
  obtain ⟨rising, below⟩ := (Memory.wf_iff m).1 h
  refine Option.eq_none_iff_forall_ne_some.2 fun v hv => ?_
  have lt := below a (List.mem_map_of_mem ((Memory.lookup_eq_some_iff rising a v).1 hv))
  omega

theorem lookup_eq_of_memRead_eq {s t : State} (hs : Memory.wf s.wb = true)
    (ht : Memory.wf t.wb = true) (h : ∀ a, memRead a s = memRead a t) (a : Nat) :
    Memory.lookup s.wb a = Memory.lookup t.wb a := by
  by_cases ha : a < 8
  · refine Option.ext fun v => ?_
    rw [← memRead_eq_ok_iff ha, h, memRead_eq_ok_iff ha]
  · rw [Memory.lookup_of_wf hs (by omega), Memory.lookup_of_wf ht (by omega)]

end Sys2Proof.Machine

namespace Sys2Proof.Proofs

open Sys2Proof.Machine

/-- Settles O51 (R28; log 2): a read is a lookup, and a lookup after a store finds what was stored there or
what was there before. -/
theorem bufferReadsWhatWasWritten : Obligations.BufferReadsWhatWasWritten := by
  unfold Obligations.BufferReadsWhatWasWritten
  refine ⟨fun a v s ha => ⟨_, memWrite_ok a v s ha, ?_, fun b hb => ?_, fun wf => ?_, rfl⟩,
    fun a v s ha => ⟨memRead_absent ha s, memWrite_absent ha v s⟩⟩
  · exact memRead_of_lookup ha (Memory.lookup_store_same s.wb a v)
  · exact memRead_congr_lookup (Memory.lookup_store_other s.wb a b v hb)
  · exact Memory.wf_store s.wb a v wf ha

/-- Settles O52 (log 2): equal reads are equal lookups, and rising lists with equal lookups have the same
entries in the same order. -/
theorem canonicalBuffersWithEqualReadsAreEqual :
    Obligations.CanonicalBuffersWithEqualReadsAreEqual := by
  unfold Obligations.CanonicalBuffersWithEqualReadsAreEqual
  intro s t hs ht h
  exact Memory.eq_of_lookup_eq ((Memory.wf_iff _).1 hs).1 ((Memory.wf_iff _).1 ht).1
    (lookup_eq_of_memRead_eq hs ht h)

end Sys2Proof.Proofs


/-! Proofs: what a run can show does not depend on the elements without a reset value (spec/10_state.md
R22, R26, R27). Two states of the same session take the same answers from the same transport, so each
instruction leaves them in the same session again, with responses of the same meaning. -/

namespace Sys2Proof.Machine

/-! ### The same transport gives the same answers -/

theorem writeAnswers_congr_tr (k : Nat) {a b : State} (h : a.tr = b.tr) :
    writeAnswers k a = writeAnswers k b := by
  rw [writeAnswers, writeAnswers, h]

theorem nextRead_congr_tr {a b : State} (h : a.tr = b.tr) : nextRead a = nextRead b := by
  rw [nextRead, nextRead, h]

theorem nextOpen_congr_tr {a b : State} (h : a.tr = b.tr) : nextOpen a = nextOpen b := by
  rw [nextOpen, nextOpen, h]

theorem nextClose_congr_tr {a b : State} (h : a.tr = b.tr) : nextClose a = nextClose b := by
  rw [nextClose, nextClose, h]

theorem txOpen_congr_tr {a b : State} (h : a.tr = b.tr) : (txOpen a).2.tr = (txOpen b).2.tr := by
  rw [txOpen_tr, txOpen_tr, nextOpen_congr_tr h, h]

theorem txClose_congr_tr {a b : State} (h : a.tr = b.tr) : (txClose a).2.tr = (txClose b).2.tr := by
  rw [txClose_tr, txClose_tr, nextClose_congr_tr h, h]

/-- The whole transport after a run of words. -/
theorem tr_of_offered {ws : List (Byte × Byte)} {s t : State} (h : Offered ws s t) :
    t.tr = ⟨s.tr.opens, s.tr.closes, s.tr.writes.drop ws.length, s.tr.reads, s.tr.drawn + ws.length,
      s.tr.calls ++ writeCalls ws (writeAnswers ws.length s)⟩ := by
  obtain ⟨calls, writes, drawn, opens, closes, reads⟩ := h
  rw [writeCalls, ← calls, ← writes, ← drawn, ← opens, ← closes, ← reads]

theorem tr_eq_of_offered {ws : List (Byte × Byte)} {a b t u : State} (ht : Offered ws a t)
    (hu : Offered ws b u) (h : a.tr = b.tr) : t.tr = u.tr := by
  rw [tr_of_offered ht, tr_of_offered hu, writeAnswers_congr_tr _ h, h]

/-! ### The same session again -/

theorem SameSession.cfg_of_opened {a b : State} (h : SameSession a b) (opened : a.phase = .opened) :
    a.cfg = b.cfg := h.cfg (by simp [opened])

theorem SameSession.of_kept {a b t u : State} (h : SameSession a b) (ht : SessionKept a t)
    (hu : SessionKept b u) (htr : t.tr = u.tr) : SameSession t u where
  phase := by rw [ht.phase, hu.phase, h.phase]
  cfg := by
    rw [ht.phase, ht.cfg, hu.cfg]
    exact h.cfg
  host := by rw [ht.host, hu.host, h.host]
  tr := htr

theorem SameSession.of_wordRead {b0 b1 : Byte} {a b t u : State} (h : SameSession a b)
    (ht : WordRead b0 b1 a t) (hu : WordRead b0 b1 b u) : SameSession t u :=
  h.of_kept ht.session hu.session (by rw [ht.tr, hu.tr, h.tr])

theorem SameSession.accept {a b : State} (h : SameSession a b) (u : EncUnit)
    (rest : List HostItem) : SameSession (accept u rest a) (accept u rest b) := by
  cases u <;> exact ⟨h.phase, h.cfg, rfl, h.tr⟩

/-! ### Responses of the same meaning (R22) -/

theorem SameResponse.of_noEvent {p q : Response} (hs : p.status = q.status) (hc : p.count = q.count)
    (hp : p.evValid = false) (hq : q.evValid = false) : SameResponse p q := by
  have noEvent : p.evValid ≠ true := by simp [hp]
  exact ⟨hs, hc, hp.trans hq.symm, fun h => absurd h noEvent, fun h => absurd h noEvent,
    fun h => absurd h noEvent⟩

theorem sameResponse_respond (status : BitVec 2) (n : Byte) (x y : State) :
    SameResponse (respond status n x).resp (respond status n y).resp :=
  .of_noEvent rfl rfl rfl rfl

theorem sameResponse_buttonEvent (k : EvKind) (xd yd : Byte) {x y : State} (h : x.cfg = y.cfg) :
    SameResponse (buttonEvent k xd yd x).resp (buttonEvent k xd yd y).resp := by
  rw [buttonEvent_resp, buttonEvent_resp, h]
  exact ⟨rfl, rfl, rfl, fun _ => rfl, fun _ => rfl, fun _ => rfl⟩

theorem sameResponse_eventOfAnswer (r : ReadAnswer) {x y : State} (h : x.cfg = y.cfg) :
    SameResponse (eventOfAnswer r x).resp (eventOfAnswer r y).resp := by
  cases r with
  | nothing | oneByte => exact sameResponse_respond statusOk 0 x y
  | word b0 b1 =>
    change SameResponse (eventOfWord b0 b1 x).resp (eventOfWord b0 b1 y).resp
    simp only [eventOfWord]
    split_ifs
    · exact sameResponse_buttonEvent _ _ _ h
    · exact sameResponse_buttonEvent _ _ _ h
    · exact sameResponse_respond statusOk 0 x y

theorem sameResponse_of_commandEmits {ws : List (Byte × Byte)} {a b t u : State}
    (ht : CommandEmits ws a t) (hu : CommandEmits ws b u) (h : a.tr = b.tr) :
    SameResponse t.resp u.resp := by
  refine .of_noEvent ?_ ?_ ht.evValid hu.evValid
  · rw [ht.status, hu.status, writeAnswers_congr_tr _ h]
  · rw [ht.count, hu.count, writeAnswers_congr_tr _ h]

/-! ### One instruction from two states of the same session -/

/-- How the instruction `i`, run from `a` to `t` and from `b` to `u`, leaves two states of the same session:
in the same session, and with responses of the same meaning, unless it is a wire word, which may leave
both responses as they were (log 6). -/
structure Agree (i : Instr) (a b t u : State) : Prop where
  session : SameSession t u
  response : SameResponse t.resp u.resp ∨ (isWireWord i = true ∧ t.resp = a.resp ∧ u.resp = b.resp)

theorem agree_encoderCommand {i : Instr} {a b t u : State} (hs : SameSession a b)
    (opened : a.phase = .opened) (hi : isEncoderCommand i = true) (ha : exec i a = .next t)
    (hb : exec i b = .next u) : Agree i a b t u := by
  have ht := exec_commandEmits hi ha
  have hu := exec_commandEmits hi hb
  rw [← hs.cfg_of_opened opened] at hu
  exact ⟨hs.of_kept ht.session hu.session (tr_eq_of_offered ht.offered hu.offered hs.tr),
    .inl (sameResponse_of_commandEmits ht hu hs.tr)⟩

theorem agree_wordEmitted {i : Instr} {w : Byte × Byte} {a b t u : State} (hs : SameSession a b)
    (hi : isWireWord i = true) (ht : WordEmitted w a t) (hu : WordEmitted w b u) :
    Agree i a b t u :=
  ⟨hs.of_kept ht.session hu.session (tr_eq_of_offered ht.offered hu.offered hs.tr),
    .inr ⟨hi, ht.resp, hu.resp⟩⟩

theorem agree_open {c : BitVec 12} {a b t u : State} (hs : SameSession a b)
    (ha : Ends a t (.cmdOpen c)) (hb : Ends b u (.cmdOpen c)) : Agree (.cmdOpen c) a b t u := by
  obtain ⟨-, -, rfl⟩ := ha
  obtain ⟨-, -, rfl⟩ := hb
  have tr := txOpen_congr_tr hs.tr
  rw [← nextOpen_congr_tr hs.tr]
  split_ifs
  · exact ⟨⟨rfl, fun _ => rfl, hs.host, tr⟩, .inl (sameResponse_respond _ _ _ _)⟩
  · exact ⟨⟨hs.phase, hs.cfg, hs.host, tr⟩, .inl (sameResponse_respond _ _ _ _)⟩

theorem agree_close {a b t u : State} (hs : SameSession a b) (ha : Ends a t .cmdClose)
    (hb : Ends b u .cmdClose) : Agree .cmdClose a b t u := by
  obtain ⟨opened, rfl⟩ := ha
  obtain ⟨-, rfl⟩ := hb
  rw [← nextClose_congr_tr hs.tr]
  exact ⟨⟨rfl, fun _ => hs.cfg_of_opened opened, hs.host, txClose_congr_tr hs.tr⟩,
    .inl (sameResponse_respond _ _ _ _)⟩

theorem agree_evt {a b t u : State} (hs : SameSession a b) (ha : Ends a t .cmdEvt)
    (hb : Ends b u .cmdEvt) : Agree .cmdEvt a b t u := by
  obtain ⟨opened, rfl⟩ := ha
  obtain ⟨-, rfl⟩ := hb
  rw [← nextRead_congr_tr hs.tr]
  have ht := eventOfAnswer_answerTaken (nextRead a) a
  have hu := eventOfAnswer_answerTaken (nextRead a) b
  exact ⟨hs.of_kept ht.session hu.session (by rw [ht.tr, hu.tr, hs.tr]),
    .inl (sameResponse_eventOfAnswer _ (hs.cfg_of_opened opened))⟩

theorem agree_buttonWord {i : Instr} {a b : State} (hs : SameSession a b) (opened : a.phase = .opened)
    (k : EvKind) (b0 : Byte) (xd yd : Nibble) :
    Agree i a b (buttonWord k b0 xd yd a) (buttonWord k b0 xd yd b) :=
  ⟨hs.of_wordRead (buttonWord_wordRead k b0 xd yd a) (buttonWord_wordRead k b0 xd yd b),
    .inl (sameResponse_buttonEvent k _ _ (hs.cfg_of_opened opened))⟩

theorem agree_droppedWord {i : Instr} {a b : State} (hs : SameSession a b) (b0 b1 : Byte) :
    Agree i a b (droppedWord b0 b1 a) (droppedWord b0 b1 b) :=
  ⟨hs.of_wordRead (droppedWord_wordRead b0 b1 a) (droppedWord_wordRead b0 b1 b),
    .inl (sameResponse_respond _ _ _ _)⟩

theorem agree_failWith {i : Instr} {a b : State} (hs : SameSession a b) (status : BitVec 2) :
    Agree i a b (failWith status a) (failWith status b) :=
  ⟨⟨hs.phase, hs.cfg, hs.host, hs.tr⟩, .inl (sameResponse_respond _ _ _ _)⟩

theorem exec_agree {i : Instr} {a b t u : State} (hs : SameSession a b) (ha : exec i a = .next t)
    (hb : exec i b = .next u) : Agree i a b t u := by
  have ea := exec_ends ha
  have eb := exec_ends hb
  cases i with
  | cmdOpen => exact agree_open hs ea eb
  | cmdClose => exact agree_close hs ea eb
  | cmdEvt => exact agree_evt hs ea eb
  | cmdClear | cmdIntensity | cmdMode | cmdLed | cmdRow | cmdCol | cmdFrame =>
    obtain ⟨opened, -⟩ := ea
    exact agree_encoderCommand hs opened rfl ha hb
  | unrecognizedAB | unrecognizedCF =>
    subst ea eb
    exact agree_failWith hs statusUnsupported
  | wLedOn | wLedOff | wRow | wCol | wIntensity =>
    obtain ⟨-, rfl⟩ := ea
    obtain ⟨-, rfl⟩ := eb
    exact agree_wordEmitted hs rfl (emit_wordEmitted _ a) (emit_wordEmitted _ b)
  | eDown | eUp =>
    obtain ⟨opened, rfl⟩ := ea
    obtain ⟨-, rfl⟩ := eb
    exact agree_buttonWord hs opened _ _ _ _
  | eUnknown23 | eUnknown47 | eUnknown8F =>
    obtain ⟨-, rfl⟩ := ea
    obtain ⟨-, rfl⟩ := eb
    exact agree_droppedWord hs _ _

/-! ### Outcomes -/

theorem OutcomesAgree.mono {R S : State → State → Prop} (hRS : ∀ t u, R t u → S t u) {p q : Result}
    (h : OutcomesAgree R p q) : OutcomesAgree S p q := by
  cases p <;> cases q
  case next.next => exact hRS _ _ h
  all_goals exact h

/-- The phase decides whether an instruction runs and by what it is refused. -/
theorem exec_outcomesAgree (i : Instr) {a b : State} (hs : SameSession a b) :
    OutcomesAgree (Agree i a b) (exec i a) (exec i b) := by
  by_cases runs : Runs i a.phase
  · obtain ⟨t, ha⟩ := exec_next_of_runs runs
    obtain ⟨u, hb⟩ := exec_next_of_runs (hs.phase ▸ runs)
    rw [ha, hb]
    exact exec_agree hs ha hb
  · rw [exec_of_not_runs runs, exec_of_not_runs (hs.phase ▸ runs), hs.phase]
    rfl

/-- What O56 says of two next states, for a step from `a` and from `b`. -/
def StepAgree (a b t u : State) : Prop :=
  SameSession t u ∧
    ((∃ l rest, a.host = .present (.command l) :: rest) → SameResponse t.resp u.resp) ∧
    (SameResponse a.resp b.resp → SameResponse t.resp u.resp)

theorem isWireWord_of_decode_command {l : Latches} {i : Instr} (h : decode (.command l) = .ok i) :
    isWireWord i = false := by
  rw [← Except.ok.inj h]
  exact isWireWord_decodeCommand l

@[simp] theorem accept_resp (u : EncUnit) (rest : List HostItem) (s : State) :
    (accept u rest s).resp = s.resp := by cases u <;> rfl

theorem stepAgree_of_agree {i : Instr} {unit : EncUnit} {rest : List HostItem} {a b t u : State}
    (hh : a.host = .present unit :: rest) (hd : decode unit = .ok i)
    (h : Agree i (accept unit rest a) (accept unit rest b) t u) : StepAgree a b t u := by
  obtain ⟨session, same | ⟨wire, ht, hu⟩⟩ := h
  · exact ⟨session, fun _ => same, fun _ => same⟩
  · refine ⟨session, fun ⟨l, rest', hl⟩ => ?_, fun h => ?_⟩
    · cases hh.symm.trans hl
      cases wire.symm.trans (isWireWord_of_decode_command hd)
    · rwa [ht, hu, accept_resp, accept_resp]

theorem step_outcomesAgree {a b : State} (hs : SameSession a b) :
    OutcomesAgree (StepAgree a b) (step a) (step b) := by
  match hh : a.host with
  | [] =>
    rw [step_wait hh, step_wait (hs.host ▸ hh)]
    refine ⟨hs, fun command => ?_, id⟩
    obtain ⟨l, rest, hl⟩ := command
    cases hh.symm.trans hl
  | .reset :: rest =>
    rw [step_reset hh, step_reset (hs.host ▸ hh)]
    have same : SameResponse Response.reset Response.reset :=
      sameResponse_respond 0 0 State.reset State.reset
    exact ⟨⟨rfl, fun h => absurd rfl h, rfl, hs.tr⟩, fun _ => same, fun _ => same⟩
  | .present unit :: rest =>
    have hh' : b.host = .present unit :: rest := hs.host ▸ hh
    cases hd : decode unit with
    | error r =>
      rw [step_reject hh hd, step_reject hh' hd]
      rfl
    | ok i =>
      rw [step_present hh hd, step_present hh' hd]
      exact (exec_outcomesAgree i (hs.accept unit rest)).mono fun _ _ => stepAgree_of_agree hh hd

end Sys2Proof.Machine

namespace Sys2Proof.Proofs

open Sys2Proof.Machine

/-- Settles O56 (R27): a step reads only the session and the transport's answers; what it reads of the
rest it has written before. -/
theorem elementsWithoutResetValueReachNoOutcome :
    Obligations.ElementsWithoutResetValueReachNoOutcome :=
  fun _ _ => step_outcomesAgree

/-- Settles O57 (R22, R26): the clause of `step_outcomesAgree` for a presented command. -/
theorem responseCarriesNothingFromEarlierCommands :
    Obligations.ResponseCarriesNothingFromEarlierCommands := by
  unfold Obligations.ResponseCarriesNothingFromEarlierCommands
  intro a b l rest hs hh
  exact (step_outcomesAgree hs).mono fun _ _ ⟨_, command, _⟩ => command ⟨l, rest, hh⟩

end Sys2Proof.Proofs


/-! Proofs: a line write sets the cells of its eight LEDs (spec/40_transform.md R75), under the device
reading G3, which is PRESUMED (log 14). Both set one line of the device; the mirror of the LEDs' index along
the line is the reversal of the line's payload. -/

namespace Sys2Proof.Machine

/-! ### The cells of a run of words -/

/-- The cells one wire word sets (G3, log 14). -/
def wordCells (w : Byte × Byte) : List ((Nat × Nat) × Bool) :=
  match decodeOutgoing w.1 w.2 with
  | .ok i => deviceCells i
  | .error _ => []

theorem wordCells_of_decode {w : Byte × Byte} {i : Instr} (h : decodeOutgoing w.1 w.2 = .ok i) :
    wordCells w = deviceCells i := by
  rw [wordCells, h]

theorem cellsSet_writeCalls {ws : List (Byte × Byte)} {ns : List (Fin 3)}
    (h : ws.length = ns.length) : cellsSet (writeCalls ws ns) = ws.flatMap wordCells := by
  induction ws generalizing ns with
  | nil => rfl
  | cons w ws ih =>
    cases ns with
    | nil => cases h
    | cons n ns => exact congrArg (wordCells w ++ ·) (ih (Nat.succ.inj h))

theorem cellsSet_of_tr {ws : List (Byte × Byte)} {s t : State} (h : t.tr = (emitMany ws s).tr) :
    cellsSet (newCalls s t) = ws.flatMap wordCells := by
  have calls : t.tr.calls = s.tr.calls ++ writeCalls ws (writeAnswers ws.length s) := by
    rw [h]
    exact (emitMany_offered ws s).calls
  rw [newCalls_of_append calls, cellsSet_writeCalls (writeAnswers_length ws.length s).symm]

/-! ### The cells of a line word and of an LED word -/

/-- The physical cell at place `j` of the line that ROW writes at index `k`. -/
def rowCell (c : Cfg) (k : Byte) (j : Nat) : Nat × Nat :=
  if c.swap then ((my c k).toNat % 8, j) else (j, (my c k).toNat % 8)

/-- The same for COL. -/
def colCell (c : Cfg) (k : Byte) (j : Nat) : Nat × Nat :=
  if c.swap then (j, (mx c k).toNat % 8) else ((mx c k).toNat % 8, j)

theorem wordCells_rowWord (c : Cfg) (k d : Byte) : wordCells (lineWord c .row k d) =
    (List.range 8).map fun j => (rowCell c k j, (axisPayload c .row d).getLsbD j) := by
  rw [wordCells_of_decode (decodeOutgoing_rowWord c k d)]
  cases h : c.swap <;> simp [deviceCells, rowCell, h]

theorem wordCells_colWord (c : Cfg) (k d : Byte) : wordCells (lineWord c .col k d) =
    (List.range 8).map fun j => (colCell c k j, (axisPayload c .col d).getLsbD j) := by
  rw [wordCells_of_decode (decodeOutgoing_colWord c k d)]
  cases h : c.swap <;> simp [deviceCells, colCell, h]

theorem wordCells_ledWord (c : Cfg) (x y : Byte) (on : Bool) : wordCells (ledWord c x y on) =
    [(((rotate c x y).1.toNat % 8, (rotate c x y).2.toNat % 8), on)] := by
  rw [wordCells_of_decode (decodeOutgoing_ledWord c x y on)]
  cases on <;> simp [deviceCells]

/-- An LED lies on the row of its `y`, at the place of its mirrored `x`. -/
theorem wordCells_ledWord_row (c : Cfg) (x y : Byte) (on : Bool) :
    wordCells (ledWord c x y on) = [(rowCell c y ((mx c x).toNat % 8), on)] := by
  rw [wordCells_ledWord]
  cases h : c.swap with
  | false => simp [rotate_keep h, rowCell, h]
  | true => simp [rotate_swap h, rowCell, h]

/-- An LED lies on the column of its `x`, at the place of its mirrored `y`. -/
theorem wordCells_ledWord_col (c : Cfg) (x y : Byte) (on : Bool) :
    wordCells (ledWord c x y on) = [(colCell c x ((my c y).toNat % 8), on)] := by
  rw [wordCells_ledWord]
  cases h : c.swap with
  | false => simp [rotate_keep h, colCell, h]
  | true => simp [rotate_swap h, colCell, h]

/-! ### Along a line of 8 -/

/-- The mirror of a place on a line of 8. -/
def mirrorPlace (flag : Bool) (j : Nat) : Nat := if flag then 7 - j else j

theorem mirrorPlace_lt (flag : Bool) {j : Nat} (h : j < 8) : mirrorPlace flag j < 8 := by
  unfold mirrorPlace
  split_ifs <;> omega

theorem mirrorPlace_mirrorPlace (flag : Bool) {j : Nat} (h : j < 8) :
    mirrorPlace flag (mirrorPlace flag j) = j := by
  unfold mirrorPlace
  split_ifs <;> omega

theorem mirror_eight_toNat (flag : Bool) {j : Nat} (h : j < 8) :
    (mirror flag 8 (BitVec.ofNat 8 j)).toNat % 8 = mirrorPlace flag j := by
  have small : (BitVec.ofNat 8 j).toNat = j := Nat.mod_eq_of_lt (by omega)
  cases flag with
  | false => rw [mirror_unset, small, Nat.mod_eq_of_lt h]; rfl
  | true =>
    rw [mirror_set_toNat (small.symm ▸ h), small]
    exact Nat.mod_eq_of_lt (mirrorPlace_lt true h)

/-- A reversed payload has at the mirrored place what the payload has at the place. -/
theorem payload_getLsbD_mirrorPlace (flag : Bool) (d : Byte) {j : Nat} (h : j < 8) :
    (if flag then rev8 d else d).getLsbD (mirrorPlace flag j) = d.getLsbD j := by
  cases flag with
  | false => rfl
  | true =>
    refine (rev8_getLsbD d (mirrorPlace_lt true h)).trans (congrArg d.getLsbD ?_)
    exact mirrorPlace_mirrorPlace true h

/-- The cells of a line, with its payload reversed or not, are those of its mirrored places in turn. -/
theorem mem_line_iff (place : Nat → Nat × Nat) (flag : Bool) (d : Byte) (cell : (Nat × Nat) × Bool) :
    cell ∈ (List.range 8).map (fun j => (place j, (if flag then rev8 d else d).getLsbD j)) ↔
      ∃ x, x < 8 ∧ cell = (place (mirrorPlace flag x), d.getLsbD x) := by
  simp only [List.mem_map, List.mem_range]
  constructor
  · rintro ⟨j, hj, rfl⟩
    refine ⟨mirrorPlace flag j, mirrorPlace_lt flag hj, ?_⟩
    have bit := payload_getLsbD_mirrorPlace flag d (mirrorPlace_lt flag hj)
    rw [mirrorPlace_mirrorPlace flag hj] at bit ⊢
    rw [bit]
  · rintro ⟨x, hx, rfl⟩
    exact ⟨mirrorPlace flag x, mirrorPlace_lt flag hx, by rw [payload_getLsbD_mirrorPlace flag d hx]⟩

/-- The cells of eight LED words that set the mirrored places of a line in turn. -/
theorem mem_leds_iff {word : Nat → Byte × Byte} {place : Nat → Nat × Nat} {flag : Bool} {d : Byte}
    (h : ∀ x, x < 8 → wordCells (word x) = [(place (mirrorPlace flag x), d.getLsbD x)])
    (cell : (Nat × Nat) × Bool) :
    cell ∈ ((List.range 8).map word).flatMap wordCells ↔
      ∃ x, x < 8 ∧ cell = (place (mirrorPlace flag x), d.getLsbD x) := by
  simp only [List.mem_flatMap, List.mem_map, List.mem_range]
  constructor
  · rintro ⟨w, ⟨x, hx, rfl⟩, hcell⟩
    rw [h x hx] at hcell
    exact ⟨x, hx, List.mem_singleton.1 hcell⟩
  · rintro ⟨x, hx, hcell⟩
    exact ⟨word x, ⟨x, hx, rfl⟩, by rw [h x hx]; exact List.mem_singleton.2 hcell⟩

/-! ### ROW and COL on 8 by 8 (R75) -/

theorem cellsSet_emitOne (w : Byte × Byte) (s : State) :
    cellsSet (newCalls s (emitOne w s)) = wordCells w := by
  have tr : (emitOne w s).tr = (emitMany [w] s).tr := rfl
  rw [cellsSet_of_tr tr, List.flatMap_singleton]

theorem mem_rowWord_iff_mem_leds {c : Cfg} (hcols : c.cols = 8) (k d : Byte)
    (cell : (Nat × Nat) × Bool) :
    cell ∈ wordCells (lineWord c .row k d) ↔ cell ∈ ((List.range 8).map fun x =>
      ledWord c (BitVec.ofNat 8 x) k (d.getLsbD x)).flatMap wordCells := by
  have led : ∀ x, x < 8 → wordCells (ledWord c (BitVec.ofNat 8 x) k (d.getLsbD x)) =
      [(rowCell c k (mirrorPlace c.rowRev x), d.getLsbD x)] := fun x hx => by
    rw [wordCells_ledWord_row, mx_eq_mirror, hcols, mirror_eight_toNat _ hx]
  rw [mem_leds_iff led, wordCells_rowWord]
  exact mem_line_iff _ _ _ _

theorem mem_colWord_iff_mem_leds {c : Cfg} (hrows : c.rows = 8) (k d : Byte)
    (cell : (Nat × Nat) × Bool) :
    cell ∈ wordCells (lineWord c .col k d) ↔ cell ∈ ((List.range 8).map fun y =>
      ledWord c k (BitVec.ofNat 8 y) (d.getLsbD y)).flatMap wordCells := by
  have led : ∀ y, y < 8 → wordCells (ledWord c k (BitVec.ofNat 8 y) (d.getLsbD y)) =
      [(colCell c k (mirrorPlace c.colRev y), d.getLsbD y)] := fun y hy => by
    rw [wordCells_ledWord_col, my_eq_mirror, hrows, mirror_eight_toNat _ hy]
  rw [mem_leds_iff led, wordCells_colWord]
  exact mem_line_iff _ _ _ _

end Sys2Proof.Machine

namespace Sys2Proof.Proofs

open Sys2Proof.Machine

/-- Settles O33 (R75; device reading log 14): a ROW and the LEDs of its cells set the same line of the
device; where `ROW_REV` mirrors the LEDs' places it reverses the payload. Likewise a COL and `COL_REV`. -/
theorem lineWritesAgreeWithSingleLeds : Obligations.LineWritesAgreeWithSingleLeds := by
  unfold Obligations.LineWritesAgreeWithSingleLeds
  intro s k d hp hrows hcols _
  constructor
  · obtain ⟨u, run, tr⟩ := runAll_emitOne
      (word := fun c x => ledWord c (BitVec.ofNat 8 x) k (d.getLsbD x))
      (fun _ _ => exec_led) (List.range 8) hp
    refine ⟨_, u, exec_row hp, run, fun cell => ?_⟩
    rw [cellsSet_emitOne, cellsSet_of_tr tr]
    exact mem_rowWord_iff_mem_leds hcols k d cell
  · obtain ⟨u, run, tr⟩ := runAll_emitOne
      (word := fun c y => ledWord c k (BitVec.ofNat 8 y) (d.getLsbD y))
      (fun _ _ => exec_led) (List.range 8) hp
    refine ⟨_, u, exec_col hp, run, fun cell => ?_⟩
    rw [cellsSet_emitOne, cellsSet_of_tr tr]
    exact mem_colWord_iff_mem_leds hrows k d cell

end Sys2Proof.Proofs
